-- ==== Sys2Proof/Word.lean ====
section
/-! DEFINITION. The machine's word, the byte of a memory cell and the plain data a memory is held in
(spec rules R8, R10, R11, R40). -/

namespace Sys2Proof

/-- Every register value, memory word, address and intermediate value is a 16-bit pattern; `+`, `&&&`
and `~~~` on it are the spec's modular sum, bitwise and, and complement (R8, R11). -/
abbrev Word := BitVec 16

/-- Half a word: the contents of one memory cell (see `Memory`) and of one byte of an object file (R42). -/
abbrev Byte := BitVec 8

/-- The 65536-word memory of R31 as sparse plain data: a list of cells in the canonical form
`Memory.wf`.  The word at address `a` is held in the two cells numbered `2 * a` (bits 7:0) and
`2 * a + 1` (bits 15:8), the order of the object file (R42).  No access of the core sees a cell alone,
so the cell order is not observable.  DESIGN CHOICE (log entry 1, safe). -/
abbrev Memory := List Host.Cell

end Sys2Proof
end

