-- ==== Sys2Proof/Syntax.lean ====
section
/-! DEFINITION. The instruction set as syntax: register names, opcodes, trap routines and the one
inductive `Instr`, one constructor per row of spec/opcode_table.json (rules R21, R61, R63 to R72, R77). -/

namespace Sys2Proof

/-- The eight general registers (R21); none is hardwired and none is banked. -/
inductive Reg where
  | r0 | r1 | r2 | r3 | r4 | r5 | r6 | r7
  deriving DecidableEq, Repr

/-- The closed set of sixteen opcodes, in the order of their numeric values 0 to 15 (R61). -/
inductive Opcode where
  | br | add | ld | st | jsr | and | ldr | str | rti | not | ldi | sti | jmp | res | lea | trap
  deriving DecidableEq, Repr

/-- The closed set of six trap names, in the order of their vectors 0x20 to 0x25 (R77). -/
inductive TrapRoutine where
  | getc | out | puts | inp | putsp | halt
  deriving DecidableEq, Repr

/-- The instructions.  Register operands are names; immediates and offsets are the bit fields of the
word, still unextended (R74).  Bits that a format ignores are no part of an instruction (R73).  The
types carry every operand range of the spec, so no ill-formed instruction can be written down. -/
inductive Instr where
  /-- R120, format R68: branch when a requested flag is set. -/
  | br (n z p : Bool) (off9 : BitVec 9)
  /-- R91, format R63. -/
  | addReg (dr sr1 sr2 : Reg)
  /-- R92, format R64. -/
  | addImm (dr sr1 : Reg) (imm5 : BitVec 5)
  /-- R101, format R66. -/
  | ld (dr : Reg) (off9 : BitVec 9)
  /-- R111, format R66. -/
  | st (sr : Reg) (off9 : BitVec 9)
  /-- R123, format R70 with mode bit 1. -/
  | jsr (off11 : BitVec 11)
  /-- R124, format R70 with mode bit 0. -/
  | jsrr (baseR : Reg)
  /-- R93, format R63. -/
  | andReg (dr sr1 sr2 : Reg)
  /-- R94, format R64. -/
  | andImm (dr sr1 : Reg) (imm5 : BitVec 5)
  /-- R103, format R67. -/
  | ldr (dr baseR : Reg) (off6 : BitVec 6)
  /-- R113, format R67. -/
  | str (sr baseR : Reg) (off6 : BitVec 6)
  /-- R144, format R72. -/
  | rti
  /-- R130, format R65. -/
  | not (dr sr : Reg)
  /-- R102, format R66. -/
  | ldi (dr : Reg) (off9 : BitVec 9)
  /-- R112, format R66. -/
  | sti (sr : Reg) (off9 : BitVec 9)
  /-- R121, format R69; RET is the form with `baseR = r7` (R122). -/
  | jmp (baseR : Reg)
  /-- R145, format R72. -/
  | res
  /-- R104, format R66. -/
  | lea (dr : Reg) (off9 : BitVec 9)
  /-- R140, format R71. -/
  | trap (vect8 : BitVec 8)
  deriving DecidableEq, Repr

end Sys2Proof
end

