-- ==== Sys2Proof/Machine/Tables.lean ====
section
/-! DEFINITION. The instruction set tables, the decode ROM of rule R1: opcodes, register names, trap
names and their numeric encodings in both directions (R61, R62, R77), the rows of the opcode table, and
which bits of a word its format ignores (R63 to R72, R76). -/

namespace Sys2Proof

/-- The numeric value of an opcode: its position in the closed list (R61). -/
def Opcode.code : Opcode → BitVec 4
  | .br => 0 | .add => 1 | .ld => 2 | .st => 3 | .jsr => 4 | .and => 5 | .ldr => 6 | .str => 7
  | .rti => 8 | .not => 9 | .ldi => 10 | .sti => 11 | .jmp => 12 | .res => 13 | .lea => 14 | .trap => 15

/-- The opcode a 4-bit value selects; all sixteen values are named (R61). -/
def Opcode.ofCode (c : BitVec 4) : Opcode :=
  match c.toNat with
  | 0 => .br | 1 => .add | 2 => .ld | 3 => .st | 4 => .jsr | 5 => .and | 6 => .ldr | 7 => .str
  | 8 => .rti | 9 => .not | 10 => .ldi | 11 => .sti | 12 => .jmp | 13 => .res | 14 => .lea | _ => .trap

/-- The opcode's mnemonic (R61). -/
def Opcode.name : Opcode → String
  | .br => "BR" | .add => "ADD" | .ld => "LD" | .st => "ST" | .jsr => "JSR" | .and => "AND"
  | .ldr => "LDR" | .str => "STR" | .rti => "RTI" | .not => "NOT" | .ldi => "LDI" | .sti => "STI"
  | .jmp => "JMP" | .res => "RES" | .lea => "LEA" | .trap => "TRAP"

/-- The sixteen opcodes in numeric order (R61). -/
def Opcode.all : List Opcode :=
  [.br, .add, .ld, .st, .jsr, .and, .ldr, .str, .rti, .not, .ldi, .sti, .jmp, .res, .lea, .trap]

/-- The opcode table read from mnemonic to opcode (R1: the mapping goes both ways). -/
def Opcode.ofName? (n : String) : Option Opcode := Opcode.all.find? fun o => o.name == n

/-- The 3-bit field value of a register (R21, R62). -/
def Reg.field : Reg → BitVec 3
  | .r0 => 0 | .r1 => 1 | .r2 => 2 | .r3 => 3 | .r4 => 4 | .r5 => 5 | .r6 => 6 | .r7 => 7

/-- The register a 3-bit field value selects; all eight values name one (R21). -/
def Reg.ofField (f : BitVec 3) : Reg :=
  match f.toNat with
  | 0 => .r0 | 1 => .r1 | 2 => .r2 | 3 => .r3 | 4 => .r4 | 5 => .r5 | 6 => .r6 | _ => .r7

/-- The register's name (R62). -/
def Reg.name : Reg → String
  | .r0 => "R0" | .r1 => "R1" | .r2 => "R2" | .r3 => "R3"
  | .r4 => "R4" | .r5 => "R5" | .r6 => "R6" | .r7 => "R7"

/-- The eight registers in numeric order. -/
def Reg.all : List Reg := [.r0, .r1, .r2, .r3, .r4, .r5, .r6, .r7]

/-- The register table read from name to register (R62). -/
def Reg.ofName? (n : String) : Option Reg := Reg.all.find? fun r => r.name == n

/-- The 8-bit vector of a trap name (R77). -/
def TrapRoutine.vector : TrapRoutine → Byte
  | .getc => 0x20 | .out => 0x21 | .puts => 0x22 | .inp => 0x23 | .putsp => 0x24 | .halt => 0x25

/-- The trap ROM read from the zero-extended vector; the mapping is closed, so any other vector selects
nothing (R77, R140, R143). -/
def TrapRoutine.ofVector? (vect : Word) : Option TrapRoutine :=
  match vect.toNat with
  | 0x20 => some .getc | 0x21 => some .out | 0x22 => some .puts
  | 0x23 => some .inp | 0x24 => some .putsp | 0x25 => some .halt
  | _ => none

/-- The trap's mnemonic (R77). -/
def TrapRoutine.name : TrapRoutine → String
  | .getc => "GETC" | .out => "OUT" | .puts => "PUTS" | .inp => "IN" | .putsp => "PUTSP" | .halt => "HALT"

/-- The six trap names in the order of their vectors. -/
def TrapRoutine.all : List TrapRoutine := [.getc, .out, .puts, .inp, .putsp, .halt]

/-- The trap table read from mnemonic to routine (R77). -/
def TrapRoutine.ofName? (n : String) : Option TrapRoutine := TrapRoutine.all.find? fun r => r.name == n

/-- One row of the opcode table: the words `w` with `w &&& mask = pattern`. -/
structure Row where
  mnemonic : String
  pattern : Word
  mask : Word
  deriving DecidableEq, Repr

/-- A word belongs to a row. -/
def Row.holds (r : Row) (w : Word) : Bool := w &&& r.mask == r.pattern

/-- The nineteen rows of the opcode table, in the table's order (R61, R73). -/
def opcodeTable : List Row :=
  [ ⟨"BR", 0x0000, 0xF000⟩, ⟨"ADD", 0x1000, 0xF020⟩, ⟨"ADD", 0x1020, 0xF020⟩, ⟨"LD", 0x2000, 0xF000⟩,
    ⟨"ST", 0x3000, 0xF000⟩, ⟨"JSR", 0x4800, 0xF800⟩, ⟨"JSRR", 0x4000, 0xF800⟩, ⟨"AND", 0x5000, 0xF020⟩,
    ⟨"AND", 0x5020, 0xF020⟩, ⟨"LDR", 0x6000, 0xF000⟩ ] ++
  [ ⟨"STR", 0x7000, 0xF000⟩, ⟨"RTI", 0x8000, 0xF000⟩, ⟨"NOT", 0x9000, 0xF000⟩, ⟨"LDI", 0xA000, 0xF000⟩,
    ⟨"STI", 0xB000, 0xF000⟩, ⟨"JMP", 0xC000, 0xF000⟩, ⟨"RES", 0xD000, 0xF000⟩, ⟨"LEA", 0xE000, 0xF000⟩,
    ⟨"TRAP", 0xF000, 0xF000⟩ ]

/-- The row an instruction belongs to. -/
def Instr.row : Instr → Row
  | .br .. => ⟨"BR", 0x0000, 0xF000⟩
  | .addReg .. => ⟨"ADD", 0x1000, 0xF020⟩
  | .addImm .. => ⟨"ADD", 0x1020, 0xF020⟩
  | .ld .. => ⟨"LD", 0x2000, 0xF000⟩
  | .st .. => ⟨"ST", 0x3000, 0xF000⟩
  | .jsr .. => ⟨"JSR", 0x4800, 0xF800⟩
  | .jsrr .. => ⟨"JSRR", 0x4000, 0xF800⟩
  | .andReg .. => ⟨"AND", 0x5000, 0xF020⟩
  | .andImm .. => ⟨"AND", 0x5020, 0xF020⟩
  | .ldr .. => ⟨"LDR", 0x6000, 0xF000⟩
  | .str .. => ⟨"STR", 0x7000, 0xF000⟩
  | .rti => ⟨"RTI", 0x8000, 0xF000⟩
  | .not .. => ⟨"NOT", 0x9000, 0xF000⟩
  | .ldi .. => ⟨"LDI", 0xA000, 0xF000⟩
  | .sti .. => ⟨"STI", 0xB000, 0xF000⟩
  | .jmp .. => ⟨"JMP", 0xC000, 0xF000⟩
  | .res => ⟨"RES", 0xD000, 0xF000⟩
  | .lea .. => ⟨"LEA", 0xE000, 0xF000⟩
  | .trap .. => ⟨"TRAP", 0xF000, 0xF000⟩

/-- The opcode an instruction belongs to (R61). -/
def Instr.opcode : Instr → Opcode
  | .br .. => .br
  | .addReg .. => .add
  | .addImm .. => .add
  | .ld .. => .ld
  | .st .. => .st
  | .jsr .. => .jsr
  | .jsrr .. => .jsr
  | .andReg .. => .and
  | .andImm .. => .and
  | .ldr .. => .ldr
  | .str .. => .str
  | .rti => .rti
  | .not .. => .not
  | .ldi .. => .ldi
  | .sti .. => .sti
  | .jmp .. => .jmp
  | .res => .res
  | .lea .. => .lea
  | .trap .. => .trap

/-- IR[15:12], the opcode of a word (R61). -/
def opcodeOf (w : Word) : Opcode := Opcode.ofCode (w.extractLsb' 12 4)

/-- The bits a word's format marks "ignored": OPR 4:3, NOT 5:0, JMP 11:9 and 5:0, JSRR 10:9 and 5:0,
TRAP 11:8, NOARG 11:0; none in the other formats (R63 to R72). -/
def ignoredBits (w : Word) : Word :=
  match opcodeOf w with
  | .add | .and => if w.getLsbD 5 then 0x0000 else 0x0018
  | .jsr => if w.getLsbD 11 then 0x0000 else 0x063F
  | .not => 0x003F
  | .jmp => 0x0E3F
  | .trap => 0x0F00
  | .rti | .res => 0x0FFF
  | .br | .ld | .st | .ldr | .str | .ldi | .sti | .lea => 0x0000

/-- What an assembler puts into the ignored bits: ones in bits 5:0 of NOT, zeros elsewhere (R76). -/
def canonicalFill (w : Word) : Word :=
  match opcodeOf w with
  | .not => 0x003F
  | _ => 0x0000

end Sys2Proof
end

