-- ==== Sys2Proof/WellFormed.lean ====
section
/-! DEFINITION. Well-formedness.  Of instructions: every operand lies in the range its field has; the
types of `Instr` already see to that, so the check refuses nothing (R62, R74).  Of words: a word is
canonical when every ignored bit holds what an assembler emits (R76). -/

namespace Sys2Proof

/-- Well-formed instructions.  All of them: register operands are the eight names (R21), the condition
requests are bits, and each immediate, offset or vector has exactly its field's width (R74), so there is
nothing left to refuse.  Written out constructor by constructor so that an instruction added later is
asked about. -/
def Instr.wf : Instr → Bool
  | .br _ _ _ _ => true
  | .addReg _ _ _ => true
  | .addImm _ _ _ => true
  | .ld _ _ => true
  | .st _ _ => true
  | .jsr _ => true
  | .jsrr _ => true
  | .andReg _ _ _ => true
  | .andImm _ _ _ => true
  | .ldr _ _ _ => true
  | .str _ _ _ => true
  | .rti => true
  | .not _ _ => true
  | .ldi _ _ => true
  | .sti _ _ => true
  | .jmp _ => true
  | .res => true
  | .lea _ _ => true
  | .trap _ => true

/-- Canonical words: the ignored bits hold their canonical value (R76).  The machine executes the other
words too (R73); the check tells the words an assembler emits from the rest. -/
def canonicalWord (w : Word) : Bool := w &&& ignoredBits w == canonicalFill w

end Sys2Proof
end

