-- ==== Sys2Proof/Decode.lean ====
section
/-! DEFINITION. The decoder (R73, R74) and the encoder (R63 to R72, R76), and the decoder's entry points on
bytes and on opcode-table words. -/

namespace Sys2Proof

/-- The 3-bit register field whose lowest bit is `lo` (R62). -/
def regField (w : Word) (lo : Nat) : Reg := Reg.ofField (w.extractLsb' lo 3)

/-- The decoder.  Total: every word is exactly one instruction; the opcode, bit 5 of ADD and AND and bit
11 of opcode 0100 choose it and no ignored bit is looked at (R73).  Fields are extracted as R74 says. -/
def decode (w : Word) : Instr :=
  match opcodeOf w with
  | .br => .br (w.getLsbD 11) (w.getLsbD 10) (w.getLsbD 9) (w.extractLsb' 0 9)
  | .add =>
    if w.getLsbD 5 then .addImm (regField w 9) (regField w 6) (w.extractLsb' 0 5)
    else .addReg (regField w 9) (regField w 6) (regField w 0)
  | .ld => .ld (regField w 9) (w.extractLsb' 0 9)
  | .st => .st (regField w 9) (w.extractLsb' 0 9)
  | .jsr => if w.getLsbD 11 then .jsr (w.extractLsb' 0 11) else .jsrr (regField w 6)
  | .and =>
    if w.getLsbD 5 then .andImm (regField w 9) (regField w 6) (w.extractLsb' 0 5)
    else .andReg (regField w 9) (regField w 6) (regField w 0)
  | .ldr => .ldr (regField w 9) (regField w 6) (w.extractLsb' 0 6)
  | .str => .str (regField w 9) (regField w 6) (w.extractLsb' 0 6)
  | .rti => .rti
  | .not => .not (regField w 9) (regField w 6)
  | .ldi => .ldi (regField w 9) (w.extractLsb' 0 9)
  | .sti => .sti (regField w 9) (w.extractLsb' 0 9)
  | .jmp => .jmp (regField w 6)
  | .res => .res
  | .lea => .lea (regField w 9) (w.extractLsb' 0 9)
  | .trap => .trap (w.extractLsb' 0 8)

/-- Why a stretch of bytes is not an instruction. -/
inductive DecodeError where
  /-- Fewer than the two bytes of an instruction word are left (R60).  No word is ever rejected (R73). -/
  | truncated
  deriving DecidableEq, Repr

/-- A word from its two bytes, the lower-addressed one in bits 7:0 (R42). -/
def wordOfBytes (lo hi : Byte) : Word := hi ++ lo

/-- The decoder on bytes: the first instruction and the bytes after it (R60). -/
def decodeBytes : List Byte → Except DecodeError (Instr × List Byte)
  | lo :: hi :: rest => .ok (decode (wordOfBytes lo hi), rest)
  | [_] => .error .truncated
  | [] => .error .truncated

/-- The encoder: the canonical word of an instruction, field by field as its format lays it out
(R63 to R72, R76). -/
def encode : Instr → Word
  | .br n z p off9 => 0b0000#4 ++ BitVec.ofBool n ++ BitVec.ofBool z ++ BitVec.ofBool p ++ off9
  | .addReg dr sr1 sr2 => 0b0001#4 ++ dr.field ++ sr1.field ++ 0b0#1 ++ 0b00#2 ++ sr2.field
  | .addImm dr sr1 imm5 => 0b0001#4 ++ dr.field ++ sr1.field ++ 0b1#1 ++ imm5
  | .ld dr off9 => 0b0010#4 ++ dr.field ++ off9
  | .st sr off9 => 0b0011#4 ++ sr.field ++ off9
  | .jsr off11 => 0b0100#4 ++ 0b1#1 ++ off11
  | .jsrr baseR => 0b0100#4 ++ 0b0#1 ++ 0b00#2 ++ baseR.field ++ 0b000000#6
  | .andReg dr sr1 sr2 => 0b0101#4 ++ dr.field ++ sr1.field ++ 0b0#1 ++ 0b00#2 ++ sr2.field
  | .andImm dr sr1 imm5 => 0b0101#4 ++ dr.field ++ sr1.field ++ 0b1#1 ++ imm5
  | .ldr dr baseR off6 => 0b0110#4 ++ dr.field ++ baseR.field ++ off6
  | .str sr baseR off6 => 0b0111#4 ++ sr.field ++ baseR.field ++ off6
  | .rti => 0b1000#4 ++ 0b000000000000#12
  | .not dr sr => 0b1001#4 ++ dr.field ++ sr.field ++ 0b111111#6
  | .ldi dr off9 => 0b1010#4 ++ dr.field ++ off9
  | .sti sr off9 => 0b1011#4 ++ sr.field ++ off9
  | .jmp baseR => 0b1100#4 ++ 0b000#3 ++ baseR.field ++ 0b000000#6
  | .res => 0b1101#4 ++ 0b000000000000#12
  | .lea dr off9 => 0b1110#4 ++ dr.field ++ off9
  | .trap vect8 => 0b1111#4 ++ 0b0000#4 ++ vect8

/-- The bytes of an instruction whose bits are the low `nbits` bits of `w`, numbered as the opcode table
numbers them, in memory order and filled with zero bytes up to one instruction word. -/
def tableBytes (nbits w : Nat) : List Byte :=
  (List.range (max ((nbits + 7) / 8) 2)).map fun k => BitVec.ofNat 8 (w % 2 ^ nbits / 2 ^ (8 * k))

/-- The instruction the decoder reads from an opcode-table word (host's question about the table). -/
def decodeTableWord (nbits w : Nat) : Option Instr :=
  match decodeBytes (tableBytes nbits w) with
  | .ok (i, _) => some i
  | .error _ => none

/-- The instruction word an opcode-table word stands for: its low sixteen bits, those above `nbits` zero. -/
def tableWord (nbits w : Nat) : Word := BitVec.ofNat 16 (w % 2 ^ nbits)

end Sys2Proof
end

