-- ==== Sys2Proof/Config.lean ====
section
/-! DEFINITION. What the spec leaves to the implementation or the environment: the parameters of rule R9
as plain data, and the one free value, the environment's reply to a trap service (rules R6, R9, R142). -/

namespace Sys2Proof

/-- The parameters of R9 that are plain data.  They are fixed for a machine; no step changes them. -/
structure Config where
  /-- `PRIV_BOUNDARY`: addresses below it are privileged (R44). -/
  privBoundary : Word
  /-- `RESET_PC`, which is also the loader's `LOAD_BASE` (R34, R182). -/
  resetPc : Word
  /-- `RESET_PRIV`, the reset value of PSR[15]: 1 = user mode, 0 = privileged mode (R34). -/
  resetPriv : BitVec 1
  deriving DecidableEq, Repr

/-- The defaults R9 names: both addresses 0x3000, user mode.  DESIGN CHOICE of the spec's decisions D6,
D7, D8 (log entry 2, unsafe for a build with other values). -/
def Config.default : Config where
  privBoundary := 0x3000#16
  resetPc := 0x3000#16
  resetPriv := 1#1

/-- One `TrapService(vect, R0)` request of the core to its environment (R6). -/
structure ServiceRequest where
  /-- The zero-extended vector, one of 0x20 to 0x24. -/
  vect : Word
  /-- The value of R0 handed over. -/
  r0 : Word
  deriving DecidableEq, Repr

/-- The environment's reply (R6). -/
inductive TrapReply where
  /-- R0 keeps its value. -/
  | noWrite
  /-- R0 receives the value. -/
  | writeR0 (v : Word)
  deriving DecidableEq, Repr, Inhabited

/-- FREE VALUE: the parameter `trap_service` of R9.  The reply to a request, given the requests served
before it (latest first) and the memory the environment may read (R6, R47).  It has no body, so nothing
can be proved about which reply it gives (R142, decision D14; DESIGN CHOICE, log entry 3, safe). -/
opaque Config.trapService (earlier : List ServiceRequest) (request : ServiceRequest) (mem : Memory) :
    TrapReply

end Sys2Proof
end

