-- ==== Sys2Proof/Machine/State.lean ====
section
/-! DEFINITION. The architectural state of one CORE instance (R20), its reset value (R34), and the reasons
a step of the model could stop. -/

namespace Sys2Proof.Machine

/-- The eight general registers, 16 bits each (R21). -/
structure Regs where
  r0 : Word
  r1 : Word
  r2 : Word
  r3 : Word
  r4 : Word
  r5 : Word
  r6 : Word
  r7 : Word
  deriving DecidableEq, Repr

/-- The run state STATUS (R32). -/
inductive Status where
  /-- The next step fetches and executes. -/
  | running
  /-- The program executed the HALT trap. -/
  | halted
  /-- The fetch at 0xFFFF could not increment PC. -/
  | ended
  /-- A fault was raised. -/
  | faulted
  deriving DecidableEq, Repr

/-- The values of FAULT_CAUSE (R151); codes 6 and 7 are unused. -/
inductive FaultCause where
  /-- Code 0: no fault; the reset value. -/
  | none
  /-- Code 1: RES in either mode, RTI in privileged mode. -/
  | illegalOpcode
  /-- Code 2: a checked access names a privileged address in user mode. -/
  | accessViolation
  /-- Code 3: RTI in user mode. -/
  | privilegeViolation
  /-- Code 4: TRAP with a vector outside 0x20 to 0x25. -/
  | illegalTrapVector
  /-- Code 5: reserved for the source's name; nothing raises it (R156). -/
  | registerOutOfRange
  deriving DecidableEq, Repr

/-- The machine's state: every row of R20, and the last two fields, which are the model's own. -/
structure State where
  /-- R0 to R7 (R21). -/
  regs : Regs
  /-- The program counter, a word address (R23). -/
  pc : Word
  /-- The instruction register (R25). -/
  ir : Word
  /-- The processor status register: PRIV = bit 15, N = bit 2, Z = bit 1, P = bit 0 (R26). -/
  psr : Word
  /-- MEM, 65536 words (R31). -/
  mem : Memory
  /-- STATUS (R32). -/
  status : Status
  /-- FAULT_CAUSE (R32, R151). -/
  faultCause : FaultCause
  /-- FAULT_INFO (R32, R151). -/
  faultInfo : Word
  /-- MODEL'S OWN: the `TrapService` requests issued since reset, latest first (R6).  It selects the
  environment's next reply; no instruction can read it.  DESIGN CHOICE (log entry 3). -/
  services : List ServiceRequest
  /-- MODEL'S OWN: the parameters of R9 this machine was built with; no step writes them.
  DESIGN CHOICE (log entry 2). -/
  cfg : Config
  deriving DecidableEq, Repr

/-- Reasons for which the model itself could stop with a fault.  The spec's own faults are no such stops:
each is taken as a next state with STATUS = FAULTED (R150). -/
inductive Fault where
  /-- The software's abort on an invalid register identity.  Raised by nothing: a register field is 3
  bits wide and all eight values name a register (R156).  Safe. -/
  | noSuchRegister
  deriving DecidableEq, Repr

/-- Reasons for which the model gives an instruction no meaning. -/
inductive Refusal where
  /-- Raised only by an arm of `exec` whose instruction has no meaning yet; no arm is in that case.
  Safe. -/
  | notModelled (mnemonic : String)
  deriving DecidableEq, Repr

/-- The state `Reset` leaves in a machine with parameters `cfg` (R34): registers, IR, memory and fault
registers zero, PC at `RESET_PC`, PSR = `RESET_PRIV` with the Z flag set, STATUS = RUNNING. -/
def State.resetWith (cfg : Config) : State where
  regs := ⟨0x0000, 0x0000, 0x0000, 0x0000, 0x0000, 0x0000, 0x0000, 0x0000⟩
  pc := cfg.resetPc
  ir := 0x0000
  psr := cfg.resetPriv ++ 0b000000000000#12 ++ 0b010#3
  mem := []
  status := .running
  faultCause := .none
  faultInfo := 0x0000
  services := []
  cfg := cfg

/-- The machine right after reset, with the default parameters (R9, R34). -/
def State.reset : State := State.resetWith Config.default

end Sys2Proof.Machine
end

