-- ==== Sys2Proof/Machine/Ops.lean ====
section
/-! DEFINITION. The named operations on memory, registers and run state, the privilege check, the two
memory access primitives (R44 to R46) and fault entry (R17, R150, R160). -/

namespace Sys2Proof

/-- Cells exist for the two halves of each of the 65536 words. -/
def Memory.cells : Nat := 0x20000

/-- The canonical form: cell numbers strictly rise and exist, and no listed cell holds what an unlisted
one reads as, which is zero (R34). -/
abbrev Memory.wf (m : Memory) : Prop :=
  m.Pairwise (fun c d => c.1 < d.1) ∧ ∀ c ∈ m, c.1 < Memory.cells ∧ c.2 ≠ 0#8

/-- What a cell holds; zero when it is not listed (R34). -/
def Memory.readByte : Memory → Nat → Byte
  | [], _ => 0#8
  | (k, b) :: m, a => if k = a then b else readByte m a

/-- Writes one cell and keeps the canonical form. -/
def Memory.writeByte : Memory → Nat → Byte → Memory
  | [], a, v => if v = 0#8 then [] else [(a, v)]
  | (k, b) :: m, a, v =>
    if k < a then (k, b) :: writeByte m a v
    else if k = a then (if v = 0#8 then m else (a, v) :: m)
    else (if v = 0#8 then (k, b) :: m else (a, v) :: (k, b) :: m)

/-- `MEM[a]`, the 16-bit word at word address `a` (R40). -/
def Memory.read (m : Memory) (a : Word) : Word :=
  m.readByte (2 * a.toNat + 1) ++ m.readByte (2 * a.toNat)

/-- `MEM[a] <- v` (R40). -/
def Memory.write (m : Memory) (a v : Word) : Memory :=
  (m.writeByte (2 * a.toNat) (v.extractLsb' 0 8)).writeByte (2 * a.toNat + 1) (v.extractLsb' 8 8)

namespace Machine

/-- Reads the register a name selects (R21). -/
def Regs.get (f : Regs) : Reg → Word
  | .r0 => f.r0 | .r1 => f.r1 | .r2 => f.r2 | .r3 => f.r3
  | .r4 => f.r4 | .r5 => f.r5 | .r6 => f.r6 | .r7 => f.r7

/-- Writes the register a name selects and no other (R21). -/
def Regs.set (f : Regs) (r : Reg) (v : Word) : Regs :=
  match r with
  | .r0 => { f with r0 := v } | .r1 => { f with r1 := v }
  | .r2 => { f with r2 := v } | .r3 => { f with r3 := v }
  | .r4 => { f with r4 := v } | .r5 => { f with r5 := v }
  | .r6 => { f with r6 := v } | .r7 => { f with r7 := v }

/-- `x[r]` (R14). -/
def State.readReg (s : State) (r : Reg) : Word := s.regs.get r

/-- `x[r] <- v` (R14). -/
def State.writeReg (s : State) (r : Reg) (v : Word) : State := { s with regs := s.regs.set r v }

/-- `PC <- a` (R14). -/
def State.setPc (s : State) (a : Word) : State := { s with pc := a }

/-- `IR <- w` (R25). -/
def State.setIr (s : State) (w : Word) : State := { s with ir := w }

/-- `MEM[a] <- v` with no privilege check: the tail of `MemWrite` and the host's `Load` (R46, R47). -/
def State.setMem (s : State) (a v : Word) : State := { s with mem := s.mem.write a v }

/-- `STATUS <- st` (R32). -/
def State.setStatus (s : State) (st : Status) : State := { s with status := st }

/-- PSR[15] = 1: the engine is in user mode (R26, R44). -/
def State.userMode (s : State) : Bool := s.psr.getLsbD 15

/-- An address is privileged exactly when it lies below `PRIV_BOUNDARY`, unsigned (R44). -/
def State.privileged (s : State) (a : Word) : Bool := decide (a.toNat < s.cfg.privBoundary.toNat)

/-- The privilege check refuses the address: a privileged address in user mode (R44). -/
def State.refuses (s : State) (a : Word) : Bool := s.userMode && s.privileged a

/-- FAULT ENTRY, `raise cause(info)` (R17, R150, R160): records cause and information and sets STATUS =
FAULTED.  Nothing else changes: no PC or PSR is saved, the mode stays, there is no handler.  There is no
return from a fault beside it: a faulted core stays so until `Reset` (R162), and RTI only faults (R144). -/
def State.raise (s : State) (cause : FaultCause) (info : Word) : State :=
  { s with status := .faulted, faultCause := cause, faultInfo := info }

/-- `MemRead(a, 1)` followed by what the step does with the word (R45): a refused address raises
`AccessViolation(a)` and the rest is not performed. -/
def State.withMemRead (s : State) (a : Word) (rest : Word → State) : State :=
  if s.refuses a then s.raise .accessViolation a else rest (s.mem.read a)

/-- `MemWrite(a, 1, v)` (R46): a refused address raises `AccessViolation(a)` and memory is not written. -/
def State.memWrite (s : State) (a v : Word) : State :=
  if s.refuses a then s.raise .accessViolation a else s.setMem a v

/-- Puts a request on the record of `TrapService` requests (R6); the model's own field. -/
def State.noteService (s : State) (q : ServiceRequest) : State := { s with services := q :: s.services }

/-- Applies the environment's reply: R0 is replaced or kept, and nothing else changes, the flags
included (R142, decision D31). -/
def State.applyReply (s : State) : TrapReply → State
  | .noWrite => s
  | .writeR0 v => s.writeReg .r0 v

/-- The core's side of `TrapService(vect, x[0])`: one request, one reply, within the step (R6, R142).
The reply is the free value of log entry 3. -/
def State.serve (s : State) (vect : Word) : State :=
  let q : ServiceRequest := ⟨vect, s.readReg .r0⟩
  (s.noteService q).applyReply (Config.trapService s.services q s.mem)

end Machine
end Sys2Proof
end

