-- ==== Sys2Proof/Machine/Flags.lean ====
section
/-! DEFINITION. The condition flags: the updater `setcc` (R27), the two ways an instruction uses it (R28)
and the test BR makes (R120). -/

namespace Sys2Proof.Machine

/-- N, Z and P as PSR[2:0] for a value: Z when it is zero, N when its bit 15 is set, else P (R27). -/
def flagsOf (v : Word) : BitVec 3 :=
  if v = 0x0000#16 then 0b010#3 else if v.getLsbD 15 then 0b100#3 else 0b001#3

/-- `setcc(v)`: writes PSR[2:0] and keeps PSR[15:3] (R16, R27). -/
def State.setcc (s : State) (v : Word) : State := { s with psr := s.psr.extractLsb' 3 13 ++ flagsOf v }

/-- The common end of ADD, AND, NOT, LD, LDI and LDR: `x[dr] <- v`, then `setcc(v)` (R28, R90, R100). -/
def State.writeResult (s : State) (dr : Reg) (v : Word) : State := (s.writeReg dr v).setcc v

/-- PSR[2:0]. -/
def State.flags (s : State) : BitVec 3 := s.psr.extractLsb' 0 3

/-- BR's condition: some requested flag is set (R120); total over all eight patterns of PSR[2:0]. -/
def State.branchTaken (s : State) (n z p : Bool) : Bool :=
  (n && s.psr.getLsbD 2) || (z && s.psr.getLsbD 1) || (p && s.psr.getLsbD 0)

end Sys2Proof.Machine
end

