-- ==== Sys2Proof/Machine/Operands.lean ====
section
/-! DEFINITION. Operand forms: the two extension primitives (R12, R13) and the two address forms, relative
to the incremented PC and to a base register (R50, R74, R100, R110). -/

namespace Sys2Proof.Machine

/-- `sext_N` (R12): bit N-1 fills all higher bits of the 16-bit result. -/
def sext {n : Nat} (v : BitVec n) : Word := v.signExtend 16

/-- `zext_8` (R13): the high eight bits are zero. -/
def zext8 (v : BitVec 8) : Word := v.setWidth 16

/-- The incremented PC plus a sign-extended offset, modulo 2^16: the address form of LD, LDI, LEA, ST
and STI and the target of BR and JSR (R23, R50). -/
def State.pcRel (s : State) {n : Nat} (off : BitVec n) : Word := s.pc + sext off

/-- A base register plus a sign-extended offset, modulo 2^16: the address form of LDR and STR (R50). -/
def State.baseRel (s : State) (baseR : Reg) (off6 : BitVec 6) : Word := s.readReg baseR + sext off6

end Sys2Proof.Machine
end

