-- ==== Sys2Proof/Machine/AddAnd.lean ====
section
/-! DEFINITION. The meanings of ADD and AND, register and immediate forms (R90 to R94). -/

namespace Sys2Proof.Machine

/-- ADD, register form (R91). -/
def execAddReg (dr sr1 sr2 : Reg) (s : State) : Host.Outcome State Fault Refusal :=
  .next (s.writeResult dr (s.readReg sr1 + s.readReg sr2))

/-- ADD, immediate form (R92). -/
def execAddImm (dr sr1 : Reg) (imm5 : BitVec 5) (s : State) : Host.Outcome State Fault Refusal :=
  .next (s.writeResult dr (s.readReg sr1 + sext imm5))

/-- AND, register form (R93). -/
def execAndReg (dr sr1 sr2 : Reg) (s : State) : Host.Outcome State Fault Refusal :=
  .next (s.writeResult dr (s.readReg sr1 &&& s.readReg sr2))

/-- AND, immediate form (R94). -/
def execAndImm (dr sr1 : Reg) (imm5 : BitVec 5) (s : State) : Host.Outcome State Fault Refusal :=
  .next (s.writeResult dr (s.readReg sr1 &&& sext imm5))

end Sys2Proof.Machine
end

