-- ==== Sys2Proof/Machine/Control.lean ====
section
/-! DEFINITION. The meanings of BR, JMP (RET), JSR and JSRR (R120 to R125). -/

namespace Sys2Proof.Machine

/-- BR (R120). -/
def execBr (n z p : Bool) (off9 : BitVec 9) (s : State) : Host.Outcome State Fault Refusal :=
  .next (if s.branchTaken n z p then s.setPc (s.pcRel off9) else s)

/-- JMP, and RET as the form with base register R7 (R121, R122). -/
def execJmp (baseR : Reg) (s : State) : Host.Outcome State Fault Refusal :=
  .next (s.setPc (s.readReg baseR))

/-- JSR (R123): the return address goes to R7; both statements read the same incremented PC. -/
def execJsr (off11 : BitVec 11) (s : State) : Host.Outcome State Fault Refusal :=
  .next ((s.writeReg .r7 s.pc).setPc (s.pcRel off11))

/-- JSRR (R124): R7 is written first and the base register is read after it, so JSRR R7 does not
transfer (decision D23). -/
def execJsrr (baseR : Reg) (s : State) : Host.Outcome State Fault Refusal :=
  .next ((s.writeReg .r7 s.pc).setPc ((s.writeReg .r7 s.pc).readReg baseR))

end Sys2Proof.Machine
end

