-- ==== Sys2Proof/Machine/Loads.lean ====
section
/-! DEFINITION. The meanings of LD, LDI, LDR and LEA (R100 to R104). -/

namespace Sys2Proof.Machine

/-- LD (R101). -/
def execLd (dr : Reg) (off9 : BitVec 9) (s : State) : Host.Outcome State Fault Refusal :=
  .next (s.withMemRead (s.pcRel off9) fun v => s.writeResult dr v)

/-- LDI (R102): the pointer is read and checked before the data. -/
def execLdi (dr : Reg) (off9 : BitVec 9) (s : State) : Host.Outcome State Fault Refusal :=
  .next (s.withMemRead (s.pcRel off9) fun ea => s.withMemRead ea fun v => s.writeResult dr v)

/-- LDR (R103): the address is formed from the old base register. -/
def execLdr (dr baseR : Reg) (off6 : BitVec 6) (s : State) : Host.Outcome State Fault Refusal :=
  .next (s.withMemRead (s.baseRel baseR off6) fun v => s.writeResult dr v)

/-- LEA (R104): the computed address itself, with no memory access and no flag update. -/
def execLea (dr : Reg) (off9 : BitVec 9) (s : State) : Host.Outcome State Fault Refusal :=
  .next (s.writeReg dr (s.pcRel off9))

end Sys2Proof.Machine
end

