-- ==== Sys2Proof/Machine/Not.lean ====
section
/-! DEFINITION. The meaning of NOT (R130). -/

namespace Sys2Proof.Machine

/-- NOT (R130): every one of the 16 bits inverted. -/
def execNot (dr sr : Reg) (s : State) : Host.Outcome State Fault Refusal :=
  .next (s.writeResult dr (~~~(s.readReg sr)))

end Sys2Proof.Machine
end

