-- ==== Sys2Proof/Machine/Stores.lean ====
section
/-! DEFINITION. The meanings of ST, STI and STR (R110 to R113). -/

namespace Sys2Proof.Machine

/-- ST (R111). -/
def execSt (sr : Reg) (off9 : BitVec 9) (s : State) : Host.Outcome State Fault Refusal :=
  .next (s.memWrite (s.pcRel off9) (s.readReg sr))

/-- STI (R112): the pointer is read and checked before the write. -/
def execSti (sr : Reg) (off9 : BitVec 9) (s : State) : Host.Outcome State Fault Refusal :=
  .next (s.withMemRead (s.pcRel off9) fun ea => s.memWrite ea (s.readReg sr))

/-- STR (R113). -/
def execStr (sr baseR : Reg) (off6 : BitVec 6) (s : State) : Host.Outcome State Fault Refusal :=
  .next (s.memWrite (s.baseRel baseR off6) (s.readReg sr))

end Sys2Proof.Machine
end

