-- ==== Sys2Proof/Machine/System.lean ====
section
/-! DEFINITION. The meanings of TRAP, RTI and RES (R140 to R145). -/

namespace Sys2Proof.Machine

/-- TRAP (R140): the zero-extended vector selects HALT (R141), a service of the environment (R142), or
nothing, which faults (R143).  No return address is saved and PC stays incremented (decision D13). -/
def execTrap (vect8 : BitVec 8) (s : State) : Host.Outcome State Fault Refusal :=
  match TrapRoutine.ofVector? (zext8 vect8) with
  | some .halt => .next (s.setStatus .halted)
  | some _ => .next (s.serve (zext8 vect8))
  | none => .next (s.raise .illegalTrapVector s.ir)

/-- RTI (R144): always faults, and the cause tells the mode (decision D18). -/
def execRti (s : State) : Host.Outcome State Fault Refusal :=
  .next (s.raise (if s.userMode then .privilegeViolation else .illegalOpcode) s.ir)

/-- RES (R145): the reserved opcode faults in either mode. -/
def execRes (s : State) : Host.Outcome State Fault Refusal :=
  .next (s.raise .illegalOpcode s.ir)

end Sys2Proof.Machine
end

