-- ==== Sys2Proof/Machine/Fetch.lean ====
section
/-! DEFINITION. The fetch part of a step (R184, R191) and where the host's probe places an instruction. -/

namespace Sys2Proof.Machine

/-- What the fetch part of a step leaves. -/
inductive Fetched where
  /-- The step is over: a stopped core, a refused fetch, or the end of memory. -/
  | over (s : State)
  /-- IR is latched and PC incremented; decode and execute follow. -/
  | ready (s : State)
  deriving DecidableEq, Repr

/-- The fetch part of `Step` (R184).  A core that is not RUNNING changes nothing (R191); a refused fetch
raises `AccessViolation(PC)` and leaves PC and IR as they were; the fetch at 0xFFFF latches IR and ends
the run with PC still 0xFFFF; any other fetch latches IR and increments PC by one. -/
def State.fetch (s : State) : Fetched :=
  match s.status with
  | .halted => .over s
  | .ended => .over s
  | .faulted => .over s
  | .running =>
    if s.refuses s.pc then .over (s.raise .accessViolation s.pc)
    else if s.pc = 0xFFFF#16 then .over ((s.setIr (s.mem.read s.pc)).setStatus .ended)
    else .ready ((s.setIr (s.mem.read s.pc)).setPc (s.pc + 1))

/-- Stores an instruction word where the next step fetches. -/
def State.placeNext (s : State) (w : Word) : State := s.setMem s.pc w

end Sys2Proof.Machine
end

