-- ==== Sys2Proof/Machine/Step.lean ====
section
/-! DEFINITION. One `Step` transaction: fetch, then decode of IR, then execute (R184). -/

namespace Sys2Proof.Machine

/-- One step (R184).  The spec's step result is read off the state after it: `State.stepResult`. -/
def step (s : State) : Host.Outcome State Fault Refusal :=
  match s.fetch with
  | .over t => .next t
  | .ready t => exec (decode t.ir) t

/-- The state with the instruction of an opcode-table word stored at PC, where the next step fetches. -/
def State.withFetchWord (s : State) (nbits w : Nat) : State := s.placeNext (tableWord nbits w)

end Sys2Proof.Machine
end

