-- ==== Sys2Proof/Machine/HostPort.lean ====
section
/-! DEFINITION. The transactions of interface IF-HOST beside `Step` itself: Reset, Load, Run, Observe and
the step result (R5, R184, R185), and the host's duty of loading a program image (R42, R85, R182). -/

namespace Sys2Proof.Machine

/-- The result a `Step` returns (R5). -/
inductive StepResult where
  | ok
  | halted
  | ended
  | fault (cause : FaultCause) (info : Word)
  deriving DecidableEq, Repr

/-- The step result is determined by STATUS after the step (R184). -/
def State.stepResult (s : State) : StepResult :=
  match s.status with
  | .running => .ok
  | .halted => .halted
  | .ended => .ended
  | .faulted => .fault s.faultCause s.faultInfo

/-- `Reset`: from any state, every piece of state at its reset value (R180). -/
def State.hostReset (s : State) : State := State.resetWith s.cfg

/-- `Load(a, w)`: one memory word, unchecked (R5, R47).  That the host issues it only between `Reset`
and the first `Step` is part of `Loaded` and `Reachable` in Safety.lean. -/
def State.hostLoad (s : State) (a w : Word) : State := s.setMem a w

/-- Loads words at consecutive addresses, modulo 2^16 (R182). -/
def State.loadWords (s : State) (a : Word) : List Word → State
  | [] => s
  | w :: ws => (s.hostLoad a w).loadWords (a + 1) ws

/-- The host's loading of an image: word 0 is the `.ORIG` address and is not stored, the rest goes to
`LOAD_BASE` onwards; an image whose word 0 differs from `LOAD_BASE` is refused (R182, decision D25).
The spec is silent on an image with no word 0; it is refused too.  DESIGN CHOICE (log entry 13, safe). -/
def State.loadImage (s : State) : List Word → Option State
  | [] => none
  | origin :: ws => if origin = s.cfg.resetPc then some (s.loadWords s.cfg.resetPc ws) else none

/-- The words of an object file, a sequence of 16-bit little-endian words (R42, R85).  The spec is silent on
a file with an odd number of bytes; it answers `none` for the whole file.  DESIGN CHOICE (log entry 13,
safe). -/
def imageOfBytes : List Byte → Option (List Word)
  | [] => some []
  | [_] => none
  | lo :: hi :: rest => (imageOfBytes rest).map fun ws => wordOfBytes lo hi :: ws

/-- `Run`: `Step` repeated while the result is `Ok` (R185), for at most the given number of steps. -/
def State.run (s : State) : Nat → State
  | 0 => s
  | k + 1 =>
    match step s with
    | .next t => if t.stepResult = .ok then t.run k else t
    | .fault _ => s
    | .refused _ => s

/-- The code of STATUS (R32). -/
def Status.code : Status → BitVec 2
  | .running => 0 | .halted => 1 | .ended => 2 | .faulted => 3

/-- The code of FAULT_CAUSE (R151). -/
def FaultCause.code : FaultCause → BitVec 3
  | .none => 0 | .illegalOpcode => 1 | .accessViolation => 2 | .privilegeViolation => 3
  | .illegalTrapVector => 4 | .registerOutOfRange => 5

/-- What `Observe` can ask for (R5). -/
inductive Probe where
  | reg (r : Reg)
  | pc
  | ir
  | psr
  | mem (a : Word)
  | status
  | faultCause
  | faultInfo
  deriving DecidableEq, Repr

/-- `Observe`: any register, memory word or run-state register, unchecked and without side effect
(R5, R47). -/
def State.observe (s : State) : Probe → Word
  | .reg r => s.readReg r
  | .pc => s.pc
  | .ir => s.ir
  | .psr => s.psr
  | .mem a => s.mem.read a
  | .status => s.status.code.setWidth 16
  | .faultCause => s.faultCause.code.setWidth 16
  | .faultInfo => s.faultInfo

end Sys2Proof.Machine
end

