-- ==== Sys2Proof/Safety.lean ====
section
/-! DEFINITION. The terms claims are stated in: the states a host can bring about, the machine's invariant,
a completed run, and the vocabulary for what an instruction leaves unchanged. -/

namespace Sys2Proof.Machine

/-- The states between `Reset` and the first `Step`: reset, then any number of loads (R5, R182). -/
inductive Loaded (cfg : Config) : State → Prop where
  | reset : Loaded cfg (State.resetWith cfg)
  | load {s : State} (a w : Word) : Loaded cfg s → Loaded cfg (s.hostLoad a w)

/-- The states a machine with parameters `cfg` can be in: a loaded state, then any number of steps (R5). -/
inductive Reachable (cfg : Config) : State → Prop where
  | loaded {s : State} : Loaded cfg s → Reachable cfg s
  | step {s t : State} : Reachable cfg s → step s = .next t → Reachable cfg t

/-- Exactly one of N, Z and P is set (R30). -/
def State.OneFlag (s : State) : Prop :=
  s.flags = 0b100#3 ∨ s.flags = 0b010#3 ∨ s.flags = 0b001#3

/-- What the run-state registers say agrees with the rest of the state (R32, R141, R152 to R157, R184). -/
def State.RunStateAgrees (s : State) : Prop :=
  match s.status with
  | .running => s.faultCause = .none ∧ s.faultInfo = 0x0000#16
  | .halted =>
    s.faultCause = .none ∧ s.faultInfo = 0x0000#16 ∧
      s.ir.extractLsb' 12 4 = 0b1111#4 ∧ s.ir.extractLsb' 0 8 = 0x25#8
  | .ended =>
    s.faultCause = .none ∧ s.faultInfo = 0x0000#16 ∧ s.pc = 0xFFFF#16 ∧ s.ir = s.mem.read 0xFFFF#16
  | .faulted =>
    (s.faultCause = .illegalOpcode ∧ s.faultInfo = s.ir ∧
        (s.ir.extractLsb' 12 4 = 0b1101#4 ∨ s.ir.extractLsb' 12 4 = 0b1000#4 ∧ s.userMode = false)) ∨
      (s.faultCause = .accessViolation ∧ s.userMode = true ∧
        s.faultInfo.toNat < s.cfg.privBoundary.toNat) ∨
      (s.faultCause = .privilegeViolation ∧ s.faultInfo = s.ir ∧ s.userMode = true ∧
        s.ir.extractLsb' 12 4 = 0b1000#4) ∨
      (s.faultCause = .illegalTrapVector ∧ s.faultInfo = s.ir ∧ s.ir.extractLsb' 12 4 = 0b1111#4 ∧
        ((s.ir.extractLsb' 0 8).toNat < 0x20 ∨ 0x25 < (s.ir.extractLsb' 0 8).toNat))

/-- The machine's invariant: memory is in its canonical form; exactly one flag is set (R30); PSR[14:3]
is zero (R26); the mode is the one reset gave (R29, R165); the run state agrees with the rest; and only
service vectors have been requested (R6). -/
def State.Inv (s : State) : Prop :=
  s.mem.wf ∧ s.OneFlag ∧ s.psr.extractLsb' 3 12 = 0#12 ∧ s.psr.extractLsb' 15 1 = s.cfg.resetPriv ∧
    s.RunStateAgrees ∧ ∀ q ∈ s.services, 0x20 ≤ q.vect.toNat ∧ q.vect.toNat ≤ 0x24

/-- The program ran to completion: STATUS ended as HALTED, which a fault or the end of memory is not
(R150, R185). -/
def State.RanToCompletion (s : State) : Prop := s.status = .halted

/-- Every register outside the list holds the same value. -/
def SameRegsBut (ds : List Reg) (s t : State) : Prop := ∀ r, r ∉ ds → t.readReg r = s.readReg r

/-- Every byte of memory holds the same value. -/
def SameMem (s t : State) : Prop := ∀ k, t.mem.readByte k = s.mem.readByte k

/-- Every byte of memory outside the word at `ea` holds the same value. -/
def SameMemBut (ea : Word) (s t : State) : Prop :=
  ∀ k, k ≠ 2 * ea.toNat → k ≠ 2 * ea.toNat + 1 → t.mem.readByte k = s.mem.readByte k

/-- IR, the run-state registers, the request record and the parameters are the same. -/
def SameRest (s t : State) : Prop :=
  t.ir = s.ir ∧ t.status = s.status ∧ t.faultCause = s.faultCause ∧ t.faultInfo = s.faultInfo ∧
    t.services = s.services ∧ t.cfg = s.cfg

/-- The flags of `t` classify `v`: N is its bit 15, Z says it is zero, P is set otherwise; every other
bit of PSR is as in `s` (R27). -/
def FlagsFollow (v : Word) (s t : State) : Prop :=
  (t.psr.getLsbD 2 = true ↔ v.getLsbD 15 = true) ∧ (t.psr.getLsbD 1 = true ↔ v = 0x0000#16) ∧
    (t.psr.getLsbD 0 = true ↔ v.getLsbD 15 = false ∧ v ≠ 0x0000#16) ∧
    ∀ k, 3 ≤ k → t.psr.getLsbD k = s.psr.getLsbD k

/-- `t` is `s` with the fault `cause(info)` entered: STATUS, FAULT_CAUSE and FAULT_INFO written and
every register, PC, IR, PSR, every byte of memory, the request record and the parameters as they were
(R17, R160). -/
def FaultEntered (cause : FaultCause) (info : Word) (s t : State) : Prop :=
  t.status = .faulted ∧ t.faultCause = cause ∧ t.faultInfo = info ∧ SameRegsBut [] s t ∧
    t.pc = s.pc ∧ t.ir = s.ir ∧ t.psr = s.psr ∧ SameMem s t ∧ t.services = s.services ∧ t.cfg = s.cfg

/-- The engine may access the address: it is in privileged mode, or the address is user memory (R44). -/
def State.MayAccess (s : State) (a : Word) : Prop :=
  s.psr.getLsbD 15 = false ∨ s.cfg.privBoundary.toNat ≤ a.toNat

end Sys2Proof.Machine
end

