-- ==== Sys2Proof/Certificates/Slice0/Obligations.lean ====
section
/-! DEFINITION. The statements for the provers, each the reading of one or more numbered rules of the spec. -/

open Sys2Proof Sys2Proof.Machine

/-! ### Operations -/

/-- R12, R13: `sext_N` for N = 5, 6, 9, 11 leaves a field whose top bit is clear as it is and adds
0x10000 - 2^N to one whose top bit is set; `zext_8` has the field in its low bits and zeros above. -/
def Obligations.ExtensionsMatchTheirRules : Prop :=
  (∀ v : BitVec 5, (sext v).toNat = if v.getLsbD 4 then v.toNat + (0x10000 - 2 ^ 5) else v.toNat) ∧
    (∀ v : BitVec 6, (sext v).toNat = if v.getLsbD 5 then v.toNat + (0x10000 - 2 ^ 6) else v.toNat) ∧
    (∀ v : BitVec 9, (sext v).toNat = if v.getLsbD 8 then v.toNat + (0x10000 - 2 ^ 9) else v.toNat) ∧
    (∀ v : BitVec 11,
      (sext v).toNat = if v.getLsbD 10 then v.toNat + (0x10000 - 2 ^ 11) else v.toNat) ∧
    ∀ v : BitVec 8, (zext8 v).extractLsb' 0 8 = v ∧ (zext8 v).extractLsb' 8 8 = 0x00#8

/-- R50: an effective address or branch target is the base plus the signed offset, modulo 2^16, so it
never leaves the address space. -/
def Obligations.AddressSumsWrap : Prop :=
  (∀ (s : State) (off9 : BitVec 9),
      ((s.pcRel off9).toNat : Int) = ((s.pc.toNat : Int) + off9.toInt) % 65536) ∧
    (∀ (s : State) (off11 : BitVec 11),
      ((s.pcRel off11).toNat : Int) = ((s.pc.toNat : Int) + off11.toInt) % 65536) ∧
    ∀ (s : State) (baseR : Reg) (off6 : BitVec 6),
      ((s.baseRel baseR off6).toNat : Int) =
        (((s.readReg baseR).toNat : Int) + off6.toInt) % 65536

/-- R16, R27: `setcc(v)` puts 010, 100 or 001 into PSR[2:0] for zero, negative and positive `v`, and
writes nothing else: not PSR[15:3], no register, PC, IR, memory or run state. -/
def Obligations.SetccClassifiesItsValue : Prop :=
  ∀ (s : State) (v : Word),
    (v = 0x0000#16 → (s.setcc v).psr.extractLsb' 0 3 = 0b010#3) ∧
      (v.getLsbD 15 = true → (s.setcc v).psr.extractLsb' 0 3 = 0b100#3) ∧
      (v ≠ 0x0000#16 → v.getLsbD 15 = false → (s.setcc v).psr.extractLsb' 0 3 = 0b001#3) ∧
      (s.setcc v).psr.extractLsb' 3 13 = s.psr.extractLsb' 3 13 ∧
      SameRegsBut [] s (s.setcc v) ∧ (s.setcc v).pc = s.pc ∧ SameMem s (s.setcc v) ∧
      SameRest s (s.setcc v)

/-- R34: what `Reset` leaves, for any value of the parameters.  The zero registers and IR, the Z flag and
the entry point are the spec's own decisions D4 to D7 (log entry 6). -/
def Obligations.ResetLeavesTheRuledValues : Prop :=
  ∀ cfg : Config,
    (∀ r, (State.resetWith cfg).readReg r = 0x0000#16) ∧
      (State.resetWith cfg).pc = cfg.resetPc ∧ (State.resetWith cfg).ir = 0x0000#16 ∧
      (cfg.resetPriv = 1#1 → (State.resetWith cfg).psr = 0x8002#16) ∧
      (cfg.resetPriv = 0#1 → (State.resetWith cfg).psr = 0x0002#16) ∧
      ((State.resetWith cfg).userMode = true ↔ cfg.resetPriv = 1#1) ∧
      (∀ a, (State.resetWith cfg).mem.read a = 0x0000#16) ∧
      (State.resetWith cfg).status = .running ∧ (State.resetWith cfg).faultCause = .none ∧
      (State.resetWith cfg).faultInfo = 0x0000#16

/-- R45: `MemRead(a, 1)` raises `AccessViolation(a)` exactly when PSR[15] = 1 and `a` is below
`PRIV_BOUNDARY`, and then what follows is not performed; otherwise the step goes on with the word at `a`,
and the read itself changes no state. -/
def Obligations.MemReadChecksPrivilege : Prop :=
  ∀ (s : State) (a : Word) (rest : Word → State),
    (s.psr.getLsbD 15 = true → a.toNat < s.cfg.privBoundary.toNat →
        FaultEntered .accessViolation a s (s.withMemRead a rest)) ∧
      (¬ (s.psr.getLsbD 15 = true ∧ a.toNat < s.cfg.privBoundary.toNat) →
        s.withMemRead a rest = rest (s.mem.read a))

/-- R46: `MemWrite(a, 1, v)` raises `AccessViolation(a)` and leaves memory unwritten exactly when
PSR[15] = 1 and `a` is below `PRIV_BOUNDARY`; otherwise it changes the one word at `a` to `v` and nothing
else.  The memory is taken to be in its canonical form, which every step keeps. -/
def Obligations.MemWriteChecksPrivilege : Prop :=
  ∀ (s : State) (a v : Word), s.mem.wf →
    (s.psr.getLsbD 15 = true → a.toNat < s.cfg.privBoundary.toNat →
        FaultEntered .accessViolation a s (s.memWrite a v)) ∧
      (¬ (s.psr.getLsbD 15 = true ∧ a.toNat < s.cfg.privBoundary.toNat) →
        (s.memWrite a v).mem.read a = v ∧ SameMemBut a s (s.memWrite a v) ∧
          SameRegsBut [] s (s.memWrite a v) ∧ (s.memWrite a v).pc = s.pc ∧
          (s.memWrite a v).psr = s.psr ∧ SameRest s (s.memWrite a v))

/-! ### ADD, AND and NOT -/

/-- R91: ADD, register form: its encoding, sum modulo 2^16, flags, frame. -/
def Obligations.AddRegisterForm : Prop :=
  (∀ w : Word, w.extractLsb' 12 4 = 0b0001#4 → w.getLsbD 5 = false →
      decode w = .addReg (Reg.ofField (w.extractLsb' 9 3)) (Reg.ofField (w.extractLsb' 6 3))
        (Reg.ofField (w.extractLsb' 0 3))) ∧
    ∀ (dr sr1 sr2 : Reg) (s : State), ∃ t, exec (.addReg dr sr1 sr2) s = .next t ∧
      (t.readReg dr).toNat = ((s.readReg sr1).toNat + (s.readReg sr2).toNat) % 0x10000 ∧
      FlagsFollow (t.readReg dr) s t ∧ SameRegsBut [dr] s t ∧ t.pc = s.pc ∧ SameMem s t ∧
      SameRest s t

/-- R92: ADD, immediate form: its encoding, sum modulo 2^16, flags, frame. -/
def Obligations.AddImmediateForm : Prop :=
  (∀ w : Word, w.extractLsb' 12 4 = 0b0001#4 → w.getLsbD 5 = true →
      decode w = .addImm (Reg.ofField (w.extractLsb' 9 3)) (Reg.ofField (w.extractLsb' 6 3))
        (w.extractLsb' 0 5)) ∧
    ∀ (dr sr1 : Reg) (imm5 : BitVec 5) (s : State), ∃ t, exec (.addImm dr sr1 imm5) s = .next t ∧
      ((t.readReg dr).toNat : Int) = (((s.readReg sr1).toNat : Int) + imm5.toInt) % 0x10000 ∧
      FlagsFollow (t.readReg dr) s t ∧ SameRegsBut [dr] s t ∧ t.pc = s.pc ∧ SameMem s t ∧
      SameRest s t

/-- R93: AND, register form: its encoding, bitwise and, flags, frame. -/
def Obligations.AndRegisterForm : Prop :=
  (∀ w : Word, w.extractLsb' 12 4 = 0b0101#4 → w.getLsbD 5 = false →
      decode w = .andReg (Reg.ofField (w.extractLsb' 9 3)) (Reg.ofField (w.extractLsb' 6 3))
        (Reg.ofField (w.extractLsb' 0 3))) ∧
    ∀ (dr sr1 sr2 : Reg) (s : State), ∃ t, exec (.andReg dr sr1 sr2) s = .next t ∧
      (∀ k, (t.readReg dr).getLsbD k = ((s.readReg sr1).getLsbD k && (s.readReg sr2).getLsbD k)) ∧
      FlagsFollow (t.readReg dr) s t ∧ SameRegsBut [dr] s t ∧ t.pc = s.pc ∧ SameMem s t ∧
      SameRest s t

/-- R94: AND, immediate form: its encoding, bitwise and with the sign-extended immediate (whose bits from
4 upwards are the field's bit 4), flags, frame. -/
def Obligations.AndImmediateForm : Prop :=
  (∀ w : Word, w.extractLsb' 12 4 = 0b0101#4 → w.getLsbD 5 = true →
      decode w = .andImm (Reg.ofField (w.extractLsb' 9 3)) (Reg.ofField (w.extractLsb' 6 3))
        (w.extractLsb' 0 5)) ∧
    ∀ (dr sr1 : Reg) (imm5 : BitVec 5) (s : State), ∃ t, exec (.andImm dr sr1 imm5) s = .next t ∧
      (∀ k, k < 16 →
        (t.readReg dr).getLsbD k = ((s.readReg sr1).getLsbD k && imm5.getLsbD (min k 4))) ∧
      FlagsFollow (t.readReg dr) s t ∧ SameRegsBut [dr] s t ∧ t.pc = s.pc ∧ SameMem s t ∧
      SameRest s t

/-- R130: NOT: its encoding, all sixteen bits inverted, flags, frame. -/
def Obligations.NotInvertsEveryBit : Prop :=
  (∀ w : Word, w.extractLsb' 12 4 = 0b1001#4 →
      decode w = .not (Reg.ofField (w.extractLsb' 9 3)) (Reg.ofField (w.extractLsb' 6 3))) ∧
    ∀ (dr sr : Reg) (s : State), ∃ t, exec (.not dr sr) s = .next t ∧
      (∀ k, k < 16 → (t.readReg dr).getLsbD k = !(s.readReg sr).getLsbD k) ∧
      FlagsFollow (t.readReg dr) s t ∧ SameRegsBut [dr] s t ∧ t.pc = s.pc ∧ SameMem s t ∧
      SameRest s t

/-! ### Loads -/

/-- R101: LD: its encoding; the word at PC + sext_9(off9), flags and frame when the access is allowed;
`AccessViolation` and nothing else when it is refused. -/
def Obligations.LdLoadsPcRelative : Prop :=
  (∀ w : Word, w.extractLsb' 12 4 = 0b0010#4 →
      decode w = .ld (Reg.ofField (w.extractLsb' 9 3)) (w.extractLsb' 0 9)) ∧
    ∀ (dr : Reg) (off9 : BitVec 9) (s : State) (ea : Word), ea = s.pc + sext off9 →
      (s.MayAccess ea → ∃ t, exec (.ld dr off9) s = .next t ∧
          t.readReg dr = s.mem.read ea ∧ FlagsFollow (s.mem.read ea) s t ∧ SameRegsBut [dr] s t ∧
          t.pc = s.pc ∧ SameMem s t ∧ SameRest s t) ∧
        (s.psr.getLsbD 15 = true → ea.toNat < s.cfg.privBoundary.toNat →
          ∃ t, exec (.ld dr off9) s = .next t ∧ FaultEntered .accessViolation ea s t)

/-- R102: LDI: its encoding; the pointer's address is checked first, then the pointer; the word the
pointer names, its flags and frame when both accesses are allowed. -/
def Obligations.LdiLoadsThroughPointer : Prop :=
  (∀ w : Word, w.extractLsb' 12 4 = 0b1010#4 →
      decode w = .ldi (Reg.ofField (w.extractLsb' 9 3)) (w.extractLsb' 0 9)) ∧
    ∀ (dr : Reg) (off9 : BitVec 9) (s : State) (pa ea : Word), pa = s.pc + sext off9 →
      ea = s.mem.read pa →
      (s.MayAccess pa → s.MayAccess ea → ∃ t, exec (.ldi dr off9) s = .next t ∧
          t.readReg dr = s.mem.read ea ∧ FlagsFollow (s.mem.read ea) s t ∧ SameRegsBut [dr] s t ∧
          t.pc = s.pc ∧ SameMem s t ∧ SameRest s t) ∧
        (s.psr.getLsbD 15 = true → pa.toNat < s.cfg.privBoundary.toNat →
          ∃ t, exec (.ldi dr off9) s = .next t ∧ FaultEntered .accessViolation pa s t) ∧
        (s.psr.getLsbD 15 = true → s.cfg.privBoundary.toNat ≤ pa.toNat →
          ea.toNat < s.cfg.privBoundary.toNat →
          ∃ t, exec (.ldi dr off9) s = .next t ∧ FaultEntered .accessViolation ea s t)

/-- R103: LDR: its encoding; the word at BaseR + sext_6(off6), with the old base when DR = BaseR; flags
and frame; `AccessViolation` and nothing else when the access is refused. -/
def Obligations.LdrLoadsBaseRelative : Prop :=
  (∀ w : Word, w.extractLsb' 12 4 = 0b0110#4 →
      decode w = .ldr (Reg.ofField (w.extractLsb' 9 3)) (Reg.ofField (w.extractLsb' 6 3))
        (w.extractLsb' 0 6)) ∧
    ∀ (dr baseR : Reg) (off6 : BitVec 6) (s : State) (ea : Word),
      ea = s.readReg baseR + sext off6 →
      (s.MayAccess ea → ∃ t, exec (.ldr dr baseR off6) s = .next t ∧
          t.readReg dr = s.mem.read ea ∧ FlagsFollow (s.mem.read ea) s t ∧ SameRegsBut [dr] s t ∧
          t.pc = s.pc ∧ SameMem s t ∧ SameRest s t) ∧
        (s.psr.getLsbD 15 = true → ea.toNat < s.cfg.privBoundary.toNat →
          ∃ t, exec (.ldr dr baseR off6) s = .next t ∧ FaultEntered .accessViolation ea s t)

/-- R104: LEA: its encoding; the computed address itself, no flag, no memory access and no fault even
for a privileged address. -/
def Obligations.LeaStoresTheAddress : Prop :=
  (∀ w : Word, w.extractLsb' 12 4 = 0b1110#4 →
      decode w = .lea (Reg.ofField (w.extractLsb' 9 3)) (w.extractLsb' 0 9)) ∧
    ∀ (dr : Reg) (off9 : BitVec 9) (s : State), ∃ t, exec (.lea dr off9) s = .next t ∧
      t.readReg dr = s.pc + sext off9 ∧ t.psr = s.psr ∧ SameRegsBut [dr] s t ∧ t.pc = s.pc ∧
      SameMem s t ∧ SameRest s t

/-! ### Stores -/

/-- R111: ST: its encoding; the word at PC + sext_9(off9) becomes SR and nothing else changes when the
access is allowed; `AccessViolation` and nothing else when it is refused. -/
def Obligations.StStoresPcRelative : Prop :=
  (∀ w : Word, w.extractLsb' 12 4 = 0b0011#4 →
      decode w = .st (Reg.ofField (w.extractLsb' 9 3)) (w.extractLsb' 0 9)) ∧
    ∀ (sr : Reg) (off9 : BitVec 9) (s : State) (ea : Word), s.mem.wf → ea = s.pc + sext off9 →
      (s.MayAccess ea → ∃ t, exec (.st sr off9) s = .next t ∧
          t.mem.read ea = s.readReg sr ∧ SameMemBut ea s t ∧ SameRegsBut [] s t ∧ t.psr = s.psr ∧
          t.pc = s.pc ∧ SameRest s t) ∧
        (s.psr.getLsbD 15 = true → ea.toNat < s.cfg.privBoundary.toNat →
          ∃ t, exec (.st sr off9) s = .next t ∧ FaultEntered .accessViolation ea s t)

/-- R112: STI: its encoding; the pointer's address is checked first, then the pointer; the word the
pointer names becomes SR and nothing else changes when both accesses are allowed. -/
def Obligations.StiStoresThroughPointer : Prop :=
  (∀ w : Word, w.extractLsb' 12 4 = 0b1011#4 →
      decode w = .sti (Reg.ofField (w.extractLsb' 9 3)) (w.extractLsb' 0 9)) ∧
    ∀ (sr : Reg) (off9 : BitVec 9) (s : State) (pa ea : Word), s.mem.wf → pa = s.pc + sext off9 →
      ea = s.mem.read pa →
      (s.MayAccess pa → s.MayAccess ea → ∃ t, exec (.sti sr off9) s = .next t ∧
          t.mem.read ea = s.readReg sr ∧ SameMemBut ea s t ∧ SameRegsBut [] s t ∧ t.psr = s.psr ∧
          t.pc = s.pc ∧ SameRest s t) ∧
        (s.psr.getLsbD 15 = true → pa.toNat < s.cfg.privBoundary.toNat →
          ∃ t, exec (.sti sr off9) s = .next t ∧ FaultEntered .accessViolation pa s t) ∧
        (s.psr.getLsbD 15 = true → s.cfg.privBoundary.toNat ≤ pa.toNat →
          ea.toNat < s.cfg.privBoundary.toNat →
          ∃ t, exec (.sti sr off9) s = .next t ∧ FaultEntered .accessViolation ea s t)

/-- R113: STR: its encoding; the word at BaseR + sext_6(off6) becomes SR and nothing else changes when
the access is allowed; `AccessViolation` and nothing else when it is refused. -/
def Obligations.StrStoresBaseRelative : Prop :=
  (∀ w : Word, w.extractLsb' 12 4 = 0b0111#4 →
      decode w = .str (Reg.ofField (w.extractLsb' 9 3)) (Reg.ofField (w.extractLsb' 6 3))
        (w.extractLsb' 0 6)) ∧
    ∀ (sr baseR : Reg) (off6 : BitVec 6) (s : State) (ea : Word), s.mem.wf →
      ea = s.readReg baseR + sext off6 →
      (s.MayAccess ea → ∃ t, exec (.str sr baseR off6) s = .next t ∧
          t.mem.read ea = s.readReg sr ∧ SameMemBut ea s t ∧ SameRegsBut [] s t ∧ t.psr = s.psr ∧
          t.pc = s.pc ∧ SameRest s t) ∧
        (s.psr.getLsbD 15 = true → ea.toNat < s.cfg.privBoundary.toNat →
          ∃ t, exec (.str sr baseR off6) s = .next t ∧ FaultEntered .accessViolation ea s t)

/-! ### Control transfer -/

/-- R120: BR: its encoding; PC + sext_9(off9) when a requested flag is set, the incremented PC otherwise,
for all eight patterns of PSR[2:0]; the test is (IR[11:9] & PSR[2:0]) != 0; nothing else changes. -/
def Obligations.BrTestsRequestedFlags : Prop :=
  (∀ w : Word, w.extractLsb' 12 4 = 0b0000#4 →
      decode w = .br (w.getLsbD 11) (w.getLsbD 10) (w.getLsbD 9) (w.extractLsb' 0 9)) ∧
    ∀ (n z p : Bool) (off9 : BitVec 9) (s : State), ∃ t, exec (.br n z p off9) s = .next t ∧
      ((n = true ∧ s.psr.getLsbD 2 = true) ∨ (z = true ∧ s.psr.getLsbD 1 = true) ∨
          (p = true ∧ s.psr.getLsbD 0 = true) → t.pc = s.pc + sext off9) ∧
      (¬ ((n = true ∧ s.psr.getLsbD 2 = true) ∨ (z = true ∧ s.psr.getLsbD 1 = true) ∨
          (p = true ∧ s.psr.getLsbD 0 = true)) → t.pc = s.pc) ∧
      ((n = true ∧ s.psr.getLsbD 2 = true) ∨ (z = true ∧ s.psr.getLsbD 1 = true) ∨
          (p = true ∧ s.psr.getLsbD 0 = true) ↔
        (BitVec.ofBool n ++ BitVec.ofBool z ++ BitVec.ofBool p : BitVec 3) &&&
          s.psr.extractLsb' 0 3 ≠ 0b000#3) ∧
      SameRegsBut [] s t ∧ t.psr = s.psr ∧ SameMem s t ∧ SameRest s t

/-- R120 with R30: BR with n = z = p = 0 is never taken, and with n = z = p = 1 it is taken in every state
in which exactly one flag is set. -/
def Obligations.BrNeverAndAlwaysForms : Prop :=
  ∀ (off9 : BitVec 9) (s : State),
    (∃ t, exec (.br false false false off9) s = .next t ∧ t = s) ∧
      (s.OneFlag → ∃ t, exec (.br true true true off9) s = .next t ∧ t.pc = s.pc + sext off9)

/-- R121, R122: JMP: its encoding; PC becomes BaseR and nothing else changes, R7 included; RET, the word
0xC1C0, is JMP R7. -/
def Obligations.JmpLoadsPc : Prop :=
  (∀ w : Word, w.extractLsb' 12 4 = 0b1100#4 → decode w = .jmp (Reg.ofField (w.extractLsb' 6 3))) ∧
    decode 0xC1C0#16 = .jmp .r7 ∧
    ∀ (baseR : Reg) (s : State), ∃ t, exec (.jmp baseR) s = .next t ∧
      t.pc = s.readReg baseR ∧ SameRegsBut [] s t ∧ t.psr = s.psr ∧ SameMem s t ∧ SameRest s t

/-- R123: JSR: its encoding; R7 receives the incremented PC, PC becomes PC + sext_11(off11), and nothing
else changes. -/
def Obligations.JsrLinksAndBranches : Prop :=
  (∀ w : Word, w.extractLsb' 12 4 = 0b0100#4 → w.getLsbD 11 = true →
      decode w = .jsr (w.extractLsb' 0 11)) ∧
    ∀ (off11 : BitVec 11) (s : State), ∃ t, exec (.jsr off11) s = .next t ∧
      t.readReg .r7 = s.pc ∧ t.pc = s.pc + sext off11 ∧ SameRegsBut [.r7] s t ∧ t.psr = s.psr ∧
      SameMem s t ∧ SameRest s t

/-- R124: JSRR: its encoding; R7 receives the incremented PC first and PC then becomes BaseR, so that
JSRR R7 goes on with the next instruction; nothing else changes. -/
def Obligations.JsrrLinksThenReadsBase : Prop :=
  (∀ w : Word, w.extractLsb' 12 4 = 0b0100#4 → w.getLsbD 11 = false →
      decode w = .jsrr (Reg.ofField (w.extractLsb' 6 3))) ∧
    ∀ (baseR : Reg) (s : State), ∃ t, exec (.jsrr baseR) s = .next t ∧
      t.readReg .r7 = s.pc ∧ (baseR = .r7 → t.pc = s.pc) ∧
      (baseR ≠ .r7 → t.pc = s.readReg baseR) ∧ SameRegsBut [.r7] s t ∧ t.psr = s.psr ∧
      SameMem s t ∧ SameRest s t

/-! ### TRAP, RTI, RES -/

/-- R141: TRAP x25, any bits 11:8: STATUS becomes HALTED, the step result is `Halted`, nothing else
changes, and no later step changes anything. -/
def Obligations.TrapHaltStopsTheCore : Prop :=
  (∀ w : Word, w.extractLsb' 12 4 = 0b1111#4 → decode w = .trap (w.extractLsb' 0 8)) ∧
    ∀ s : State, ∃ t, exec (.trap 0x25#8) s = .next t ∧
      t.status = .halted ∧ t.stepResult = .halted ∧ SameRegsBut [] s t ∧ t.pc = s.pc ∧
      t.ir = s.ir ∧ t.psr = s.psr ∧ SameMem s t ∧ t.faultCause = s.faultCause ∧
      t.faultInfo = s.faultInfo ∧ t.services = s.services ∧ t.cfg = s.cfg ∧ ∀ k, t.run k = t

/-- R142: TRAP x20 to x24: one request with the zero-extended vector and R0 goes to the environment; R0 is
kept or replaced as the reply says, for whatever reply; R1 to R7, PC, PSR, IR, memory and run state are
as before.  The reply and the record of requests are the model's free value (log entry 3); the statement
holds for every reply. -/
def Obligations.TrapServiceChangesOnlyR0 : Prop :=
  ∀ (vect8 : BitVec 8) (s : State), 0x20 ≤ vect8.toNat → vect8.toNat ≤ 0x24 →
    ∃ t, exec (.trap vect8) s = .next t ∧
      (Config.trapService s.services ⟨zext8 vect8, s.readReg .r0⟩ s.mem = .noWrite →
        t.readReg .r0 = s.readReg .r0) ∧
      (∀ v, Config.trapService s.services ⟨zext8 vect8, s.readReg .r0⟩ s.mem = .writeR0 v →
        t.readReg .r0 = v) ∧
      t.services = ⟨zext8 vect8, s.readReg .r0⟩ :: s.services ∧
      SameRegsBut [.r0] s t ∧ t.pc = s.pc ∧ t.ir = s.ir ∧ t.psr = s.psr ∧ SameMem s t ∧
      t.status = s.status ∧ (s.status = .running → t.stepResult = .ok) ∧
      t.faultCause = s.faultCause ∧ t.faultInfo = s.faultInfo ∧ t.cfg = s.cfg

/-- R143: TRAP with any other vector raises `IllegalTrapVector(IR)`. -/
def Obligations.TrapOtherVectorFaults : Prop :=
  ∀ (vect8 : BitVec 8) (s : State), vect8.toNat < 0x20 ∨ 0x25 < vect8.toNat →
    ∃ t, exec (.trap vect8) s = .next t ∧ FaultEntered .illegalTrapVector s.ir s t ∧
      t.stepResult = .fault .illegalTrapVector s.ir

/-- R144: RTI, any low bits: `PrivilegeViolation(IR)` in user mode, `IllegalOpcode(IR)` in privileged
mode, and nothing else. -/
def Obligations.RtiAlwaysFaults : Prop :=
  (∀ w : Word, w.extractLsb' 12 4 = 0b1000#4 → decode w = .rti) ∧
    ∀ s : State, ∃ t, exec .rti s = .next t ∧
      (s.psr.getLsbD 15 = true → FaultEntered .privilegeViolation s.ir s t) ∧
      (s.psr.getLsbD 15 = false → FaultEntered .illegalOpcode s.ir s t)

/-- R145: RES, any low bits, raises `IllegalOpcode(IR)` in either mode, and nothing else. -/
def Obligations.ResAlwaysFaults : Prop :=
  (∀ w : Word, w.extractLsb' 12 4 = 0b1101#4 → decode w = .res) ∧
    ∀ s : State, ∃ t, exec .res s = .next t ∧ FaultEntered .illegalOpcode s.ir s t

/-- R77: the trap table is the closed mapping of six names to the vectors 0x20 to 0x25, with their
canonical words; every other zero-extended vector selects nothing.  The pairs of GETC, OUT, PUTS, IN and
PUTSP with 0x20 to 0x24 are an inference R77 marks as its own, "The other five pairs follow from taking the
list in order `[derived: from the order of the list in §3]`" (log entry 7); HALT = 0x25 is the source's. -/
def Obligations.TrapTableIsClosed : Prop :=
  TrapRoutine.all.map (fun r => (r.name, r.vector, encode (.trap r.vector))) =
      [("GETC", 0x20#8, 0xF020#16), ("OUT", 0x21#8, 0xF021#16), ("PUTS", 0x22#8, 0xF022#16),
        ("IN", 0x23#8, 0xF023#16), ("PUTSP", 0x24#8, 0xF024#16), ("HALT", 0x25#8, 0xF025#16)] ∧
    (∀ r : TrapRoutine, TrapRoutine.ofVector? (zext8 r.vector) = some r) ∧
    (∀ (v : Word) (r : TrapRoutine), TrapRoutine.ofVector? v = some r → v = zext8 r.vector) ∧
    ∀ v : Word, TrapRoutine.ofVector? v = none ↔ v.toNat < 0x20 ∨ 0x25 < v.toNat

/-! ### The step -/

/-- R184: a running core whose fetch is allowed and is not at 0xFFFF latches the word at PC into IR,
increments PC by one, and the step is the decoded instruction on that state. -/
def Obligations.StepRunsTheDecodedInstruction : Prop :=
  ∀ (s : State) (i : Instr), s.status = .running → s.MayAccess s.pc → s.pc ≠ 0xFFFF#16 →
    decode (s.mem.read s.pc) = i → i.wf = true →
    step s = exec i { s with ir := s.mem.read s.pc, pc := s.pc + 1 }

/-- R184, R153: a refused fetch raises `AccessViolation(PC)` and leaves PC, IR and all else as they were. -/
def Obligations.RefusedFetchFaults : Prop :=
  ∀ s : State, s.status = .running → s.psr.getLsbD 15 = true →
    s.pc.toNat < s.cfg.privBoundary.toNat →
    ∃ t, step s = .next t ∧ FaultEntered .accessViolation s.pc s t ∧
      t.stepResult = .fault .accessViolation s.pc

/-- R184: the fetch at 0xFFFF latches IR and ends the run; PC stays 0xFFFF and the word is not executed. -/
def Obligations.FetchAtTopOfMemoryEnds : Prop :=
  ∀ s : State, s.status = .running → s.MayAccess s.pc → s.pc = 0xFFFF#16 →
    ∃ t, step s = .next t ∧ t.status = .ended ∧ t.stepResult = .ended ∧ t.pc = 0xFFFF#16 ∧
      t.ir = s.mem.read 0xFFFF#16 ∧ SameRegsBut [] s t ∧ t.psr = s.psr ∧ SameMem s t ∧
      t.faultCause = s.faultCause ∧ t.faultInfo = s.faultInfo ∧ t.services = s.services ∧
      t.cfg = s.cfg

/-- R191: a step of a core that is not RUNNING changes nothing and returns the same result, however many
steps are issued. -/
def Obligations.StoppedCoreStaysStopped : Prop :=
  ∀ (s : State) (k : Nat), s.status ≠ .running →
    step s = .next s ∧ s.run k = s ∧ (s.status = .halted → s.stepResult = .halted) ∧
      (s.status = .ended → s.stepResult = .ended) ∧
      (s.status = .faulted → s.stepResult = .fault s.faultCause s.faultInfo)

/-- R45, R46, R184 and every instruction rule: a step always answers a next state; the model never stops
with a fault or a refusal of its own. -/
def Obligations.EveryStepAnswersANextState : Prop :=
  (∀ (i : Instr) (s : State), ∃ t, exec i s = .next t) ∧ ∀ s : State, ∃ t, step s = .next t

/-! ### Encoding -/

/-- R63 to R74: decoding the encoding of any well-formed instruction gives it back, with every operand at
every value. -/
def Obligations.DecodeOfEncode : Prop := ∀ i : Instr, i.wf = true → decode (encode i) = i

/-- R73, R76: encoding what a canonical word decodes to gives the word back; every encoding is canonical. -/
def Obligations.EncodeOfDecodeOnCanonicalWords : Prop :=
  (∀ w : Word, canonicalWord w = true → encode (decode w) = w) ∧
    ∀ i : Instr, canonicalWord (encode i) = true

/-- R73: ignored bits have no effect: two words that agree on all bits the first one's format looks at
decode to the same instruction. -/
def Obligations.IgnoredBitsHaveNoEffect : Prop :=
  ∀ w w' : Word, w &&& ~~~ignoredBits w = w' &&& ~~~ignoredBits w → decode w = decode w'

/-- R61, R73: every word lies in exactly one row of the opcode table, the row of the instruction it
decodes to. -/
def Obligations.OpcodeRowsPartitionWords : Prop :=
  ∀ w : Word, (decode w).row ∈ opcodeTable ∧ (decode w).row.holds w = true ∧
    ∀ r ∈ opcodeTable, r.holds w = true → r = (decode w).row

/-- A few words written out from the encodings of R63 to R72 decode to what they stand for. -/
def Obligations.SampleWordsDecode : Prop :=
  decode 0b0001_010_000_0_00_001#16 = .addReg .r2 .r0 .r1 ∧
    decode 0b0101_001_010_1_10000#16 = .andImm .r1 .r2 0b10000#5 ∧
    decode 0b1001_001_000_111111#16 = .not .r1 .r0 ∧
    decode 0b0110_011_010_000001#16 = .ldr .r3 .r2 0b000001#6 ∧
    decode 0b1011_000_000000101#16 = .sti .r0 0b000000101#9 ∧
    decode 0b0000_001_111111101#16 = .br false false true 0b111111101#9 ∧
    decode 0b0100_1_00000000010#16 = .jsr 0b00000000010#11 ∧
    decode 0b1111_0000_00100101#16 = .trap 0x25#8

/-! ### Whole-machine rules -/

/-- The machine's invariant holds at reset, for any value of the parameters. -/
def Obligations.InvariantAtReset : Prop := ∀ cfg : Config, (State.resetWith cfg).Inv

/-- R26, R29, R30, R32: every step from any state that meets the invariant gives a state that meets it:
canonical memory, exactly one flag, PSR[14:3] zero, the mode of reset, and a run state that agrees with
IR, PC and mode. -/
def Obligations.InvariantKeptByEveryStep : Prop :=
  ∀ s t : State, s.Inv → step s = .next t → t.Inv

/-- R30: in every state that loads and steps can reach from reset the invariant holds, so exactly one of
N, Z, P is set, and the parameters are those of the reset. -/
def Obligations.ReachableStatesMeetTheInvariant : Prop :=
  ∀ (cfg : Config) (s : State), Reachable cfg s → s.Inv ∧ s.OneFlag ∧ s.cfg = cfg

/-- R28: only ADD, AND, NOT, LD, LDI and LDR change PSR, and they change only PSR[2:0]. -/
def Obligations.OnlySixOpcodesWriteFlags : Prop :=
  ∀ (w : Word) (s t : State), exec (decode w) s = .next t →
    t.psr.extractLsb' 3 13 = s.psr.extractLsb' 3 13 ∧
      (t.psr ≠ s.psr →
        w.extractLsb' 12 4 ∈ [0b0001#4, 0b0101#4, 0b1001#4, 0b0010#4, 0b1010#4, 0b0110#4])

/-- R29, R165: no step, whatever it does, changes the mode or the parameters. -/
def Obligations.ModeNeverChanges : Prop :=
  ∀ s t : State, step s = .next t → t.psr.getLsbD 15 = s.psr.getLsbD 15 ∧ t.cfg = s.cfg

/-- R22: the table of which instruction writes which general register: DR for ADD, AND, NOT, LD, LDI, LEA
and LDR, R7 for JSR and JSRR, R0 for TRAP, none for ST, STI, STR, BR, JMP, RTI and RES. -/
def Obligations.RegisterWritersTable : Prop :=
  ∀ (w : Word) (s t : State), exec (decode w) s = .next t →
    (w.extractLsb' 12 4 ∈
        [0b0001#4, 0b0101#4, 0b1001#4, 0b0010#4, 0b1010#4, 0b1110#4, 0b0110#4] →
      SameRegsBut [Reg.ofField (w.extractLsb' 9 3)] s t) ∧
    (w.extractLsb' 12 4 = 0b0100#4 → SameRegsBut [.r7] s t) ∧
    (w.extractLsb' 12 4 = 0b1111#4 → SameRegsBut [.r0] s t) ∧
    (w.extractLsb' 12 4 ∈
        [0b0011#4, 0b1011#4, 0b0111#4, 0b0000#4, 0b1100#4, 0b1000#4, 0b1101#4] →
      SameRegsBut [] s t)

/-- R48: only ST, STI and STR write memory: every other instruction leaves the whole memory as it is. -/
def Obligations.OnlyStoresWriteMemory : Prop :=
  ∀ (w : Word) (s t : State), exec (decode w) s = .next t →
    w.extractLsb' 12 4 ∉ [0b0011#4, 0b1011#4, 0b0111#4] → t.mem = s.mem

/-- R24: after a step of a running core that did not fault at fetch or end, PC is the incremented PC
unless the word is BR, JMP, JSR or JSRR. -/
def Obligations.OnlyTransfersMovePc : Prop :=
  ∀ s t : State, s.status = .running → s.MayAccess s.pc → s.pc ≠ 0xFFFF#16 → step s = .next t →
    (s.mem.read s.pc).extractLsb' 12 4 ∉ [0b0000#4, 0b1100#4, 0b0100#4] → t.pc = s.pc + 1

/-- R32, R157: a running core becomes HALTED only by TRAP x25, ENDED only at PC = 0xFFFF, and FAULTED only
with a cause that R151 says is raised, which RegisterOutOfRange is not (R156). -/
def Obligations.HowARunEnds : Prop :=
  ∀ s t : State, s.status = .running → step s = .next t →
    (t.status = .halted → decode (s.mem.read s.pc) = .trap 0x25#8 ∧ t.ir = s.mem.read s.pc) ∧
      (t.status = .ended → s.pc = 0xFFFF#16) ∧
      (t.status = .faulted → t.faultCause ∈
        [FaultCause.illegalOpcode, .accessViolation, .privilegeViolation, .illegalTrapVector]) ∧
      (t.status ≠ .faulted → t.faultCause = s.faultCause ∧ t.faultInfo = s.faultInfo)

/-- R160, R161: faults are precise: a step that faults has written no general register, no PSR bit and no
memory byte; either the fetch was refused and PC and IR are as before, or PC is incremented and IR holds
the faulting word. -/
def Obligations.FaultsArePrecise : Prop :=
  ∀ s t : State, s.status = .running → step s = .next t → t.status = .faulted →
    SameRegsBut [] s t ∧ t.psr = s.psr ∧ SameMem s t ∧
      ((¬ s.MayAccess s.pc ∧ t.pc = s.pc ∧ t.ir = s.ir) ∨
        (s.MayAccess s.pc ∧ t.pc = s.pc + 1 ∧ t.ir = s.mem.read s.pc))

/-- R44: a step in user mode never changes a word of privileged memory. -/
def Obligations.UserModeCannotWritePrivilegedMemory : Prop :=
  ∀ (s t : State) (a : Word), s.mem.wf → s.psr.getLsbD 15 = true → step s = .next t →
    a.toNat < s.cfg.privBoundary.toNat → t.mem.read a = s.mem.read a

/-- R44: a step in user mode learns nothing of privileged memory: two user-mode states that differ only
in privileged words still differ only there after a step, unless the step hands a request to the
environment, which may read all of memory (R47). -/
def Obligations.UserModeCannotReadPrivilegedMemory : Prop :=
  ∀ (s s' t t' : State), s.mem.wf → s'.mem.wf → s' = { s with mem := s'.mem } →
    s.psr.getLsbD 15 = true →
    (∀ a : Word, s.cfg.privBoundary.toNat ≤ a.toNat → s'.mem.read a = s.mem.read a) →
    (∀ v8, decode (s.mem.read s.pc) = .trap v8 → v8.toNat < 0x20 ∨ 0x24 < v8.toNat) →
    step s = .next t → step s' = .next t' →
    t' = { t with mem := t'.mem } ∧
      ∀ a : Word, s.cfg.privBoundary.toNat ≤ a.toNat → t'.mem.read a = t.mem.read a

/-- R44, R164: in privileged mode, or with `PRIV_BOUNDARY` = 0, no step raises `AccessViolation`. -/
def Obligations.NoViolationWithoutProtection : Prop :=
  ∀ s t : State, s.status = .running →
    s.psr.getLsbD 15 = false ∨ s.cfg.privBoundary = 0x0000#16 → step s = .next t →
    t.status = .faulted → t.faultCause ≠ .accessViolation

/-- R54, R189: a word stored at an address is what the very next fetch of that address executes. -/
def Obligations.StoredWordIsExecutedNext : Prop :=
  ∀ (s : State) (a v : Word), s.mem.wf → s.status = .running → s.MayAccess a → a ≠ 0xFFFF#16 →
    ∃ t, step ((s.memWrite a v).setPc a) = exec (decode v) t ∧ t.ir = v ∧ t.pc = a + 1 ∧
      t.mem.read a = v ∧ SameMemBut a s t ∧ SameRegsBut [] s t ∧ t.psr = s.psr

/-! ### The host's transactions -/

/-- R182: loading an image puts words 1 to n at `LOAD_BASE` onwards, modulo 2^16, and changes nothing
else; word 0 is not stored; an image whose word 0 is not `LOAD_BASE` is refused. -/
def Obligations.ImageIsLoadedAtLoadBase : Prop :=
  ∀ (s : State) (origin : Word) (ws : List Word), s.mem.wf → ws.length ≤ 0x10000 →
    (origin ≠ s.cfg.resetPc → s.loadImage (origin :: ws) = none) ∧
      (origin = s.cfg.resetPc → ∃ t, s.loadImage (origin :: ws) = some t ∧
        (∀ (k : Nat) (h : k < ws.length), t.mem.read (s.cfg.resetPc + BitVec.ofNat 16 k) = ws[k]) ∧
        (∀ a : Word, (∀ k < ws.length, a ≠ s.cfg.resetPc + BitVec.ofNat 16 k) →
          t.mem.read a = s.mem.read a) ∧
        SameRegsBut [] s t ∧ t.pc = s.pc ∧ t.psr = s.psr ∧ SameRest s t)

/-- R42, R85: an object file is a sequence of 16-bit little-endian words: the words are read back from
their bytes, lower byte first. -/
def Obligations.ObjectFileIsLittleEndian : Prop :=
  ∀ ws : List Word,
    imageOfBytes (ws.flatMap fun w => [w.extractLsb' 0 8, w.extractLsb' 8 8]) = some ws
end

