-- ==== Sys2Proof/Laws/Encoding.lean ====
section
/-! SUPPORT. The opcode of a decoded word (R61, R73), and the fields of each format's layout read back from
the word: one lemma per field, over any field values (R63 to R72, R74). -/

namespace Sys2Proof

@[simp] theorem Opcode.ofCode_code (o : Opcode) : Opcode.ofCode o.code = o := by cases o <;> rfl

@[simp] theorem Opcode.code_ofCode (c : BitVec 4) : (Opcode.ofCode c).code = c := by
  revert c; decide

@[simp] theorem Reg.ofField_field (r : Reg) : Reg.ofField r.field = r := by cases r <;> rfl

@[simp] theorem Reg.field_ofField (f : BitVec 3) : (Reg.ofField f).field = f := by
  revert f; decide

/-- A word decodes to an instruction of its own opcode (R73). -/
theorem opcode_decode (w : Word) : (decode w).opcode = opcodeOf w := by
  unfold decode
  cases opcodeOf w <;> simp only <;> (try split) <;> rfl

/-- IR[15:12] is the code of the decoded instruction's opcode (R61). -/
theorem code_opcode_decode (w : Word) : (decode w).opcode.code = w.extractLsb' 12 4 := by
  rw [opcode_decode, opcodeOf, Opcode.code_ofCode]

theorem opr_op (op : BitVec 4) (a : BitVec 3) (b : BitVec 3) (m : BitVec 1) (x : BitVec 2) (c : BitVec 3) :
    (op ++ a ++ b ++ m ++ x ++ c : Word).extractLsb' 12 4 = op := by
  apply BitVec.eq_of_getLsbD_eq
  intro i hi
  simp only [BitVec.getLsbD_extractLsb', BitVec.getLsbD_append, hi]
  interval_cases i <;> simp

theorem opr_a (op : BitVec 4) (a : BitVec 3) (b : BitVec 3) (m : BitVec 1) (x : BitVec 2) (c : BitVec 3) :
    (op ++ a ++ b ++ m ++ x ++ c : Word).extractLsb' 9 3 = a := by
  apply BitVec.eq_of_getLsbD_eq
  intro i hi
  simp only [BitVec.getLsbD_extractLsb', BitVec.getLsbD_append, hi]
  interval_cases i <;> simp

theorem opr_b (op : BitVec 4) (a : BitVec 3) (b : BitVec 3) (m : BitVec 1) (x : BitVec 2) (c : BitVec 3) :
    (op ++ a ++ b ++ m ++ x ++ c : Word).extractLsb' 6 3 = b := by
  apply BitVec.eq_of_getLsbD_eq
  intro i hi
  simp only [BitVec.getLsbD_extractLsb', BitVec.getLsbD_append, hi]
  interval_cases i <;> simp

theorem opr_m (op : BitVec 4) (a : BitVec 3) (b : BitVec 3) (m : BitVec 1) (x : BitVec 2) (c : BitVec 3) :
    (op ++ a ++ b ++ m ++ x ++ c : Word).getLsbD 5 = m.getLsbD 0 := by
  simp only [BitVec.getLsbD_append]
  simp

theorem opr_c (op : BitVec 4) (a : BitVec 3) (b : BitVec 3) (m : BitVec 1) (x : BitVec 2) (c : BitVec 3) :
    (op ++ a ++ b ++ m ++ x ++ c : Word).extractLsb' 0 3 = c := by
  apply BitVec.eq_of_getLsbD_eq
  intro i hi
  simp only [BitVec.getLsbD_extractLsb', BitVec.getLsbD_append, hi]
  interval_cases i <;> simp

theorem opi_op (op : BitVec 4) (a : BitVec 3) (b : BitVec 3) (m : BitVec 1) (c : BitVec 5) :
    (op ++ a ++ b ++ m ++ c : Word).extractLsb' 12 4 = op := by
  apply BitVec.eq_of_getLsbD_eq
  intro i hi
  simp only [BitVec.getLsbD_extractLsb', BitVec.getLsbD_append, hi]
  interval_cases i <;> simp

theorem opi_a (op : BitVec 4) (a : BitVec 3) (b : BitVec 3) (m : BitVec 1) (c : BitVec 5) :
    (op ++ a ++ b ++ m ++ c : Word).extractLsb' 9 3 = a := by
  apply BitVec.eq_of_getLsbD_eq
  intro i hi
  simp only [BitVec.getLsbD_extractLsb', BitVec.getLsbD_append, hi]
  interval_cases i <;> simp

theorem opi_b (op : BitVec 4) (a : BitVec 3) (b : BitVec 3) (m : BitVec 1) (c : BitVec 5) :
    (op ++ a ++ b ++ m ++ c : Word).extractLsb' 6 3 = b := by
  apply BitVec.eq_of_getLsbD_eq
  intro i hi
  simp only [BitVec.getLsbD_extractLsb', BitVec.getLsbD_append, hi]
  interval_cases i <;> simp

theorem opi_m (op : BitVec 4) (a : BitVec 3) (b : BitVec 3) (m : BitVec 1) (c : BitVec 5) :
    (op ++ a ++ b ++ m ++ c : Word).getLsbD 5 = m.getLsbD 0 := by
  simp only [BitVec.getLsbD_append]
  simp

theorem opi_c (op : BitVec 4) (a : BitVec 3) (b : BitVec 3) (m : BitVec 1) (c : BitVec 5) :
    (op ++ a ++ b ++ m ++ c : Word).extractLsb' 0 5 = c := by
  apply BitVec.eq_of_getLsbD_eq
  intro i hi
  simp only [BitVec.getLsbD_extractLsb', BitVec.getLsbD_append, hi]
  interval_cases i <;> simp

theorem pc9_op (op : BitVec 4) (a : BitVec 3) (c : BitVec 9) :
    (op ++ a ++ c : Word).extractLsb' 12 4 = op := by
  apply BitVec.eq_of_getLsbD_eq
  intro i hi
  simp only [BitVec.getLsbD_extractLsb', BitVec.getLsbD_append, hi]
  interval_cases i <;> simp

theorem pc9_a (op : BitVec 4) (a : BitVec 3) (c : BitVec 9) :
    (op ++ a ++ c : Word).extractLsb' 9 3 = a := by
  apply BitVec.eq_of_getLsbD_eq
  intro i hi
  simp only [BitVec.getLsbD_extractLsb', BitVec.getLsbD_append, hi]
  interval_cases i <;> simp

theorem pc9_c (op : BitVec 4) (a : BitVec 3) (c : BitVec 9) :
    (op ++ a ++ c : Word).extractLsb' 0 9 = c := by
  apply BitVec.eq_of_getLsbD_eq
  intro i hi
  simp only [BitVec.getLsbD_extractLsb', BitVec.getLsbD_append, hi]
  interval_cases i <;> simp

theorem base6_op (op : BitVec 4) (a : BitVec 3) (b : BitVec 3) (c : BitVec 6) :
    (op ++ a ++ b ++ c : Word).extractLsb' 12 4 = op := by
  apply BitVec.eq_of_getLsbD_eq
  intro i hi
  simp only [BitVec.getLsbD_extractLsb', BitVec.getLsbD_append, hi]
  interval_cases i <;> simp

theorem base6_a (op : BitVec 4) (a : BitVec 3) (b : BitVec 3) (c : BitVec 6) :
    (op ++ a ++ b ++ c : Word).extractLsb' 9 3 = a := by
  apply BitVec.eq_of_getLsbD_eq
  intro i hi
  simp only [BitVec.getLsbD_extractLsb', BitVec.getLsbD_append, hi]
  interval_cases i <;> simp

theorem base6_b (op : BitVec 4) (a : BitVec 3) (b : BitVec 3) (c : BitVec 6) :
    (op ++ a ++ b ++ c : Word).extractLsb' 6 3 = b := by
  apply BitVec.eq_of_getLsbD_eq
  intro i hi
  simp only [BitVec.getLsbD_extractLsb', BitVec.getLsbD_append, hi]
  interval_cases i <;> simp

theorem base6_c (op : BitVec 4) (a : BitVec 3) (b : BitVec 3) (c : BitVec 6) :
    (op ++ a ++ b ++ c : Word).extractLsb' 0 6 = c := by
  apply BitVec.eq_of_getLsbD_eq
  intro i hi
  simp only [BitVec.getLsbD_extractLsb', BitVec.getLsbD_append, hi]
  interval_cases i <;> simp

theorem br_op (op : BitVec 4) (n : BitVec 1) (z : BitVec 1) (p : BitVec 1) (c : BitVec 9) :
    (op ++ n ++ z ++ p ++ c : Word).extractLsb' 12 4 = op := by
  apply BitVec.eq_of_getLsbD_eq
  intro i hi
  simp only [BitVec.getLsbD_extractLsb', BitVec.getLsbD_append, hi]
  interval_cases i <;> simp

theorem br_n (op : BitVec 4) (n : BitVec 1) (z : BitVec 1) (p : BitVec 1) (c : BitVec 9) :
    (op ++ n ++ z ++ p ++ c : Word).getLsbD 11 = n.getLsbD 0 := by
  simp only [BitVec.getLsbD_append]
  simp

theorem br_z (op : BitVec 4) (n : BitVec 1) (z : BitVec 1) (p : BitVec 1) (c : BitVec 9) :
    (op ++ n ++ z ++ p ++ c : Word).getLsbD 10 = z.getLsbD 0 := by
  simp only [BitVec.getLsbD_append]
  simp

theorem br_p (op : BitVec 4) (n : BitVec 1) (z : BitVec 1) (p : BitVec 1) (c : BitVec 9) :
    (op ++ n ++ z ++ p ++ c : Word).getLsbD 9 = p.getLsbD 0 := by
  simp only [BitVec.getLsbD_append]
  simp

theorem br_c (op : BitVec 4) (n : BitVec 1) (z : BitVec 1) (p : BitVec 1) (c : BitVec 9) :
    (op ++ n ++ z ++ p ++ c : Word).extractLsb' 0 9 = c := by
  apply BitVec.eq_of_getLsbD_eq
  intro i hi
  simp only [BitVec.getLsbD_extractLsb', BitVec.getLsbD_append, hi]
  interval_cases i <;> simp

theorem jsr11_op (op : BitVec 4) (m : BitVec 1) (c : BitVec 11) :
    (op ++ m ++ c : Word).extractLsb' 12 4 = op := by
  apply BitVec.eq_of_getLsbD_eq
  intro i hi
  simp only [BitVec.getLsbD_extractLsb', BitVec.getLsbD_append, hi]
  interval_cases i <;> simp

theorem jsr11_m (op : BitVec 4) (m : BitVec 1) (c : BitVec 11) :
    (op ++ m ++ c : Word).getLsbD 11 = m.getLsbD 0 := by
  simp only [BitVec.getLsbD_append]
  simp

theorem jsr11_c (op : BitVec 4) (m : BitVec 1) (c : BitVec 11) :
    (op ++ m ++ c : Word).extractLsb' 0 11 = c := by
  apply BitVec.eq_of_getLsbD_eq
  intro i hi
  simp only [BitVec.getLsbD_extractLsb', BitVec.getLsbD_append, hi]
  interval_cases i <;> simp

theorem jsrr_op (op : BitVec 4) (m : BitVec 1) (x : BitVec 2) (b : BitVec 3) (c : BitVec 6) :
    (op ++ m ++ x ++ b ++ c : Word).extractLsb' 12 4 = op := by
  apply BitVec.eq_of_getLsbD_eq
  intro i hi
  simp only [BitVec.getLsbD_extractLsb', BitVec.getLsbD_append, hi]
  interval_cases i <;> simp

theorem jsrr_m (op : BitVec 4) (m : BitVec 1) (x : BitVec 2) (b : BitVec 3) (c : BitVec 6) :
    (op ++ m ++ x ++ b ++ c : Word).getLsbD 11 = m.getLsbD 0 := by
  simp only [BitVec.getLsbD_append]
  simp

theorem jsrr_b (op : BitVec 4) (m : BitVec 1) (x : BitVec 2) (b : BitVec 3) (c : BitVec 6) :
    (op ++ m ++ x ++ b ++ c : Word).extractLsb' 6 3 = b := by
  apply BitVec.eq_of_getLsbD_eq
  intro i hi
  simp only [BitVec.getLsbD_extractLsb', BitVec.getLsbD_append, hi]
  interval_cases i <;> simp

theorem jsrr_c (op : BitVec 4) (m : BitVec 1) (x : BitVec 2) (b : BitVec 3) (c : BitVec 6) :
    (op ++ m ++ x ++ b ++ c : Word).extractLsb' 0 6 = c := by
  apply BitVec.eq_of_getLsbD_eq
  intro i hi
  simp only [BitVec.getLsbD_extractLsb', BitVec.getLsbD_append, hi]
  interval_cases i <;> simp

theorem noarg_op (op : BitVec 4) (c : BitVec 12) :
    (op ++ c : Word).extractLsb' 12 4 = op := by
  apply BitVec.eq_of_getLsbD_eq
  intro i hi
  simp only [BitVec.getLsbD_extractLsb', BitVec.getLsbD_append, hi]
  interval_cases i <;> simp

theorem noarg_c (op : BitVec 4) (c : BitVec 12) :
    (op ++ c : Word).extractLsb' 0 12 = c := by
  apply BitVec.eq_of_getLsbD_eq
  intro i hi
  simp only [BitVec.getLsbD_extractLsb', BitVec.getLsbD_append, hi]
  interval_cases i <;> simp

theorem trap_op (op : BitVec 4) (x : BitVec 4) (c : BitVec 8) :
    (op ++ x ++ c : Word).extractLsb' 12 4 = op := by
  apply BitVec.eq_of_getLsbD_eq
  intro i hi
  simp only [BitVec.getLsbD_extractLsb', BitVec.getLsbD_append, hi]
  interval_cases i <;> simp

theorem trap_c (op : BitVec 4) (x : BitVec 4) (c : BitVec 8) :
    (op ++ x ++ c : Word).extractLsb' 0 8 = c := by
  apply BitVec.eq_of_getLsbD_eq
  intro i hi
  simp only [BitVec.getLsbD_extractLsb', BitVec.getLsbD_append, hi]
  interval_cases i <;> simp

end Sys2Proof
end

