-- ==== Sys2Proof/Laws/Memory.lean ====
section
/-! SUPPORT. The laws of memory: reading back what was written, leaving every other cell alone, and keeping
the canonical form. -/

namespace Sys2Proof

@[simp] theorem Memory.readByte_nil (a : Nat) : Memory.readByte [] a = 0#8 := rfl

theorem Memory.wf_nil : Memory.wf [] := by simp [Memory.wf]

/-- A canonical memory without its first cell is canonical. -/
theorem Memory.wf_tail {c : Host.Cell} {m : Memory} (h : Memory.wf (c :: m)) : Memory.wf m :=
  ⟨(List.pairwise_cons.1 h.1).2, fun d hd => h.2 d (List.mem_cons_of_mem _ hd)⟩

/-- A cell numbered at or below the first cell of a canonical memory is not listed after it. -/
theorem Memory.readByte_below {m : Memory} {a : Nat} (h : ∀ c ∈ m, a < c.1) :
    m.readByte a = 0#8 := by
  induction m with
  | nil => rfl
  | cons c m ih =>
    have hc := h c (List.mem_cons_self ..)
    simp only [Memory.readByte]
    rw [if_neg (by omega), ih fun d hd => h d (List.mem_cons_of_mem _ hd)]

/-- Reading a cell of a memory whose first cell is given. -/
theorem Memory.readByte_cons (n : Nat) (b : Byte) (m : Memory) (k : Nat) :
    Memory.readByte ((n, b) :: m) k = if n = k then b else Memory.readByte m k := rfl

/-- Reading a cell after writing one: the value written, or what the cell held before. -/
theorem Memory.readByte_writeByte {m : Memory} (h : m.wf) (a k : Nat) (v : Byte) :
    (m.writeByte a v).readByte k = if k = a then v else m.readByte k := by
  induction m with
  | nil =>
    by_cases hv : v = 0#8
    · simp [Memory.writeByte, hv]
    · by_cases hk : k = a
      · simp [Memory.writeByte, hv, hk, Memory.readByte_cons]
      · simp [Memory.writeByte, hv, hk, Memory.readByte_cons, Ne.symm hk]
  | cons c m ih =>
    obtain ⟨n, b⟩ := c
    have htail : ∀ d ∈ m, n < d.1 := (List.pairwise_cons.1 h.1).1
    have ih := ih (Memory.wf_tail h)
    simp only [Memory.writeByte]
    rcases Nat.lt_trichotomy n a with hna | rfl | hna
    · rw [if_pos hna, Memory.readByte_cons, Memory.readByte_cons, ih]
      by_cases hk : n = k
      · rw [if_pos hk, if_pos hk, if_neg (by omega)]
      · rw [if_neg hk, if_neg hk]
    · rw [if_neg (Nat.lt_irrefl n), if_pos rfl, Memory.readByte_cons]
      by_cases hv : v = 0#8
      · rw [if_pos hv]
        by_cases hk : k = n
        · rw [if_pos hk, hk, hv, Memory.readByte_below htail]
        · rw [if_neg hk, if_neg (Ne.symm hk)]
      · rw [if_neg hv, Memory.readByte_cons]
        by_cases hk : k = n
        · rw [if_pos hk, if_pos hk.symm]
        · rw [if_neg hk, if_neg (Ne.symm hk), if_neg (Ne.symm hk)]
    · rw [if_neg (by omega), if_neg (by omega)]
      have hbelow : ∀ d ∈ (n, b) :: m, a < d.1 := fun d hd => by
        rcases List.mem_cons.1 hd with rfl | hd
        · exact hna
        · have := htail d hd; omega
      by_cases hv : v = 0#8
      · rw [if_pos hv]
        by_cases hk : k = a
        · rw [if_pos hk, hk, hv, Memory.readByte_below hbelow]
        · rw [if_neg hk]
      · rw [if_neg hv, Memory.readByte_cons a v]
        by_cases hk : k = a
        · rw [if_pos hk, if_pos hk.symm]
        · rw [if_neg hk, if_neg (Ne.symm hk)]

/-- A cell of the memory after a write is the cell written or was there before. -/
theorem Memory.mem_writeByte {m : Memory} {a : Nat} {v : Byte} {c : Host.Cell}
    (h : c ∈ m.writeByte a v) : (c = (a, v) ∧ v ≠ 0#8) ∨ c ∈ m := by
  induction m with
  | nil =>
    simp only [Memory.writeByte] at h
    by_cases hv : v = 0#8
    · rw [if_pos hv] at h; simp at h
    · rw [if_neg hv] at h; exact .inl ⟨List.mem_singleton.1 h, hv⟩
  | cons d m ih =>
    obtain ⟨n, b⟩ := d
    simp only [Memory.writeByte] at h
    split_ifs at h with h1 h2 h3 h4
    · rcases List.mem_cons.1 h with rfl | h
      · exact .inr (List.mem_cons_self ..)
      · exact (ih h).imp_right (List.mem_cons_of_mem _)
    · exact .inr (List.mem_cons_of_mem _ h)
    · rcases List.mem_cons.1 h with rfl | h
      · exact .inl ⟨rfl, h3⟩
      · exact .inr (List.mem_cons_of_mem _ h)
    · exact .inr h
    · rcases List.mem_cons.1 h with rfl | h
      · exact .inl ⟨rfl, h4⟩
      · exact .inr h

/-- Writing a cell keeps the cell numbers rising. -/
theorem Memory.pairwise_writeByte {m : Memory} (h : m.Pairwise fun c d => c.1 < d.1) (a : Nat)
    (v : Byte) : (m.writeByte a v).Pairwise fun c d => c.1 < d.1 := by
  induction m with
  | nil =>
    simp only [Memory.writeByte]
    split <;> simp
  | cons c m ih =>
    obtain ⟨n, b⟩ := c
    obtain ⟨hlt, hp⟩ := List.pairwise_cons.1 h
    simp only [Memory.writeByte]
    split_ifs with h1 h2 h3 h4
    · refine List.pairwise_cons.2 ⟨fun d hd => ?_, ih hp⟩
      rcases Memory.mem_writeByte hd with ⟨rfl, -⟩ | hd
      · exact h1
      · exact hlt d hd
    · exact hp
    · subst h2; exact List.pairwise_cons.2 ⟨hlt, hp⟩
    · exact h
    · refine List.pairwise_cons.2 ⟨fun d hd => ?_, h⟩
      have hna : a < n := by omega
      rcases List.mem_cons.1 hd with rfl | hd
      · exact hna
      · exact Nat.lt_trans hna (hlt d hd)

/-- Writing a cell that exists keeps the canonical form. -/
theorem Memory.wf_writeByte {m : Memory} (h : m.wf) {a : Nat} (ha : a < Memory.cells) (v : Byte) :
    (m.writeByte a v).wf := by
  refine ⟨Memory.pairwise_writeByte h.1 a v, fun c hc => ?_⟩
  rcases Memory.mem_writeByte hc with ⟨rfl, hv⟩ | hc
  · exact ⟨ha, hv⟩
  · exact h.2 c hc

/-- The first cell of a canonical memory is not zero, and no later cell has its number or a lower one. -/
theorem Memory.wf_cons {n : Nat} {b : Byte} {m : Memory} (h : Memory.wf ((n, b) :: m)) :
    b ≠ 0#8 ∧ ∀ d ∈ m, n < d.1 :=
  ⟨(h.2 _ (List.mem_cons_self ..)).2, (List.pairwise_cons.1 h.1).1⟩

/-- Two canonical memories that read the same everywhere are the same data. -/
theorem Memory.eq_of_readByte {m m' : Memory} (h : m.wf) (h' : m'.wf)
    (e : ∀ k, m.readByte k = m'.readByte k) : m = m' := by
  induction m generalizing m' with
  | nil =>
    cases m' with
    | nil => rfl
    | cons d m' =>
      obtain ⟨k, b⟩ := d
      have := e k
      rw [Memory.readByte_cons, if_pos rfl] at this
      exact absurd this.symm (Memory.wf_cons h').1
  | cons c m ih =>
    obtain ⟨n, b⟩ := c
    obtain ⟨hb, hlt⟩ := Memory.wf_cons h
    cases m' with
    | nil =>
      have := e n
      rw [Memory.readByte_cons, if_pos rfl] at this
      exact absurd this hb
    | cons d m' =>
      obtain ⟨n', b'⟩ := d
      obtain ⟨hb', hlt'⟩ := Memory.wf_cons h'
      rcases Nat.lt_trichotomy n n' with hn | rfl | hn
      · have := e n
        rw [Memory.readByte_cons, if_pos rfl, Memory.readByte_cons, if_neg (by omega),
          Memory.readByte_below fun d hd => Nat.lt_trans hn (hlt' d hd)] at this
        exact absurd this hb
      · have hbb : b = b' := by simpa [Memory.readByte_cons] using e n
        have : m = m' := ih (Memory.wf_tail h) (Memory.wf_tail h') fun k => by
          by_cases hk : n = k
          · subst hk
            rw [Memory.readByte_below hlt, Memory.readByte_below hlt']
          · simpa [Memory.readByte_cons, hk] using e k
        rw [hbb, this]
      · have := e n'
        rw [Memory.readByte_cons, if_neg (by omega), Memory.readByte_cons, if_pos rfl,
          Memory.readByte_below fun d hd => Nat.lt_trans hn (hlt d hd)] at this
        exact absurd this.symm hb'

/-- Both cells of a word exist. -/
theorem Memory.cells_of_word (a : Word) : 2 * a.toNat + 1 < Memory.cells := by
  have := a.isLt
  simp only [Memory.cells]
  omega

/-- Writing a word keeps the canonical form. -/
theorem Memory.wf_write {m : Memory} (h : m.wf) (a v : Word) : (m.write a v).wf := by
  have := Memory.cells_of_word a
  exact Memory.wf_writeByte (Memory.wf_writeByte h (by omega) _) this _

/-- A cell after a word was written: one of the word's halves, or what it held before. -/
theorem Memory.readByte_write {m : Memory} (h : m.wf) (a v : Word) (k : Nat) :
    (m.write a v).readByte k =
      if k = 2 * a.toNat + 1 then v.extractLsb' 8 8
      else if k = 2 * a.toNat then v.extractLsb' 0 8 else m.readByte k := by
  have := Memory.cells_of_word a
  unfold Memory.write
  rw [Memory.readByte_writeByte (Memory.wf_writeByte h (by omega) _), Memory.readByte_writeByte h]

/-- Reading the word just written gives it back. -/
theorem Memory.read_write_same {m : Memory} (h : m.wf) (a v : Word) : (m.write a v).read a = v := by
  simp only [Memory.read, Memory.readByte_write h, if_true]
  rw [if_neg (by omega)]
  ext i hi
  simp only [BitVec.getElem_append, BitVec.getElem_extractLsb']
  split <;> simp_all [BitVec.getLsbD_eq_getElem]

/-- Writing a word leaves every other word alone. -/
theorem Memory.read_write_other {m : Memory} (h : m.wf) {a b : Word} (hab : b ≠ a) (v : Word) :
    (m.write a v).read b = m.read b := by
  have : b.toNat ≠ a.toNat := fun e => hab (BitVec.eq_of_toNat_eq e)
  simp only [Memory.read, Memory.readByte_write h]
  rw [if_neg (by omega), if_neg (by omega), if_neg (by omega), if_neg (by omega)]

/-- Words are read from their two cells only. -/
theorem Memory.read_congr {m m' : Memory} (h : ∀ k, m'.readByte k = m.readByte k) (a : Word) :
    m'.read a = m.read a := by
  simp only [Memory.read, h]

namespace Machine

/-- A memory operation of the machine keeps the canonical form: the unchecked write. -/
theorem State.setMem_wf {s : State} (h : s.mem.wf) (a v : Word) : (s.setMem a v).mem.wf :=
  Memory.wf_write h a v

/-- A memory operation of the machine keeps the canonical form: `MemWrite`. -/
theorem State.memWrite_wf {s : State} (h : s.mem.wf) (a v : Word) : (s.memWrite a v).mem.wf := by
  unfold State.memWrite
  split
  · exact h
  · exact Memory.wf_write h a v

/-- A memory operation of the machine keeps the canonical form: the host's loading of words. -/
theorem State.loadWords_wf {s : State} (h : s.mem.wf) (a : Word) (ws : List Word) :
    (s.loadWords a ws).mem.wf := by
  induction ws generalizing s a with
  | nil => exact h
  | cons w ws ih => exact ih (State.setMem_wf h a w) (a + 1)

/-- Reset memory is in the canonical form. -/
theorem State.resetWith_wf (cfg : Config) : (State.resetWith cfg).mem.wf := Memory.wf_nil

/-- Reset memory is in the canonical form, with the default parameters. -/
theorem State.reset_wf : State.reset.mem.wf := State.resetWith_wf _

end Machine
end Sys2Proof
end

