-- ==== Sys2Proof/Laws/State.lean ====
section
/-! SUPPORT. What each named update does to each field of the state, true by unfolding, so that no later
proof unfolds a record update. -/

namespace Sys2Proof.Machine

@[simp] theorem State.writeReg_regs (s : State) (r : Reg) (v : Word) : (s.writeReg r v).regs = s.regs.set r v := rfl
@[simp] theorem State.writeReg_pc (s : State) (r : Reg) (v : Word) : (s.writeReg r v).pc = s.pc := rfl
@[simp] theorem State.writeReg_ir (s : State) (r : Reg) (v : Word) : (s.writeReg r v).ir = s.ir := rfl
@[simp] theorem State.writeReg_psr (s : State) (r : Reg) (v : Word) : (s.writeReg r v).psr = s.psr := rfl
@[simp] theorem State.writeReg_mem (s : State) (r : Reg) (v : Word) : (s.writeReg r v).mem = s.mem := rfl
@[simp] theorem State.writeReg_status (s : State) (r : Reg) (v : Word) : (s.writeReg r v).status = s.status := rfl
@[simp] theorem State.writeReg_faultCause (s : State) (r : Reg) (v : Word) : (s.writeReg r v).faultCause = s.faultCause := rfl
@[simp] theorem State.writeReg_faultInfo (s : State) (r : Reg) (v : Word) : (s.writeReg r v).faultInfo = s.faultInfo := rfl
@[simp] theorem State.writeReg_services (s : State) (r : Reg) (v : Word) : (s.writeReg r v).services = s.services := rfl
@[simp] theorem State.writeReg_cfg (s : State) (r : Reg) (v : Word) : (s.writeReg r v).cfg = s.cfg := rfl

@[simp] theorem State.setPc_regs (s : State) (a : Word) : (s.setPc a).regs = s.regs := rfl
@[simp] theorem State.setPc_pc (s : State) (a : Word) : (s.setPc a).pc = a := rfl
@[simp] theorem State.setPc_ir (s : State) (a : Word) : (s.setPc a).ir = s.ir := rfl
@[simp] theorem State.setPc_psr (s : State) (a : Word) : (s.setPc a).psr = s.psr := rfl
@[simp] theorem State.setPc_mem (s : State) (a : Word) : (s.setPc a).mem = s.mem := rfl
@[simp] theorem State.setPc_status (s : State) (a : Word) : (s.setPc a).status = s.status := rfl
@[simp] theorem State.setPc_faultCause (s : State) (a : Word) : (s.setPc a).faultCause = s.faultCause := rfl
@[simp] theorem State.setPc_faultInfo (s : State) (a : Word) : (s.setPc a).faultInfo = s.faultInfo := rfl
@[simp] theorem State.setPc_services (s : State) (a : Word) : (s.setPc a).services = s.services := rfl
@[simp] theorem State.setPc_cfg (s : State) (a : Word) : (s.setPc a).cfg = s.cfg := rfl

@[simp] theorem State.setIr_regs (s : State) (w : Word) : (s.setIr w).regs = s.regs := rfl
@[simp] theorem State.setIr_pc (s : State) (w : Word) : (s.setIr w).pc = s.pc := rfl
@[simp] theorem State.setIr_ir (s : State) (w : Word) : (s.setIr w).ir = w := rfl
@[simp] theorem State.setIr_psr (s : State) (w : Word) : (s.setIr w).psr = s.psr := rfl
@[simp] theorem State.setIr_mem (s : State) (w : Word) : (s.setIr w).mem = s.mem := rfl
@[simp] theorem State.setIr_status (s : State) (w : Word) : (s.setIr w).status = s.status := rfl
@[simp] theorem State.setIr_faultCause (s : State) (w : Word) : (s.setIr w).faultCause = s.faultCause := rfl
@[simp] theorem State.setIr_faultInfo (s : State) (w : Word) : (s.setIr w).faultInfo = s.faultInfo := rfl
@[simp] theorem State.setIr_services (s : State) (w : Word) : (s.setIr w).services = s.services := rfl
@[simp] theorem State.setIr_cfg (s : State) (w : Word) : (s.setIr w).cfg = s.cfg := rfl

@[simp] theorem State.setMem_regs (s : State) (a v : Word) : (s.setMem a v).regs = s.regs := rfl
@[simp] theorem State.setMem_pc (s : State) (a v : Word) : (s.setMem a v).pc = s.pc := rfl
@[simp] theorem State.setMem_ir (s : State) (a v : Word) : (s.setMem a v).ir = s.ir := rfl
@[simp] theorem State.setMem_psr (s : State) (a v : Word) : (s.setMem a v).psr = s.psr := rfl
@[simp] theorem State.setMem_mem (s : State) (a v : Word) : (s.setMem a v).mem = s.mem.write a v := rfl
@[simp] theorem State.setMem_status (s : State) (a v : Word) : (s.setMem a v).status = s.status := rfl
@[simp] theorem State.setMem_faultCause (s : State) (a v : Word) : (s.setMem a v).faultCause = s.faultCause := rfl
@[simp] theorem State.setMem_faultInfo (s : State) (a v : Word) : (s.setMem a v).faultInfo = s.faultInfo := rfl
@[simp] theorem State.setMem_services (s : State) (a v : Word) : (s.setMem a v).services = s.services := rfl
@[simp] theorem State.setMem_cfg (s : State) (a v : Word) : (s.setMem a v).cfg = s.cfg := rfl

@[simp] theorem State.setStatus_regs (s : State) (st : Status) : (s.setStatus st).regs = s.regs := rfl
@[simp] theorem State.setStatus_pc (s : State) (st : Status) : (s.setStatus st).pc = s.pc := rfl
@[simp] theorem State.setStatus_ir (s : State) (st : Status) : (s.setStatus st).ir = s.ir := rfl
@[simp] theorem State.setStatus_psr (s : State) (st : Status) : (s.setStatus st).psr = s.psr := rfl
@[simp] theorem State.setStatus_mem (s : State) (st : Status) : (s.setStatus st).mem = s.mem := rfl
@[simp] theorem State.setStatus_status (s : State) (st : Status) : (s.setStatus st).status = st := rfl
@[simp] theorem State.setStatus_faultCause (s : State) (st : Status) : (s.setStatus st).faultCause = s.faultCause := rfl
@[simp] theorem State.setStatus_faultInfo (s : State) (st : Status) : (s.setStatus st).faultInfo = s.faultInfo := rfl
@[simp] theorem State.setStatus_services (s : State) (st : Status) : (s.setStatus st).services = s.services := rfl
@[simp] theorem State.setStatus_cfg (s : State) (st : Status) : (s.setStatus st).cfg = s.cfg := rfl

@[simp] theorem State.raise_regs (s : State) (c : FaultCause) (i : Word) : (s.raise c i).regs = s.regs := rfl
@[simp] theorem State.raise_pc (s : State) (c : FaultCause) (i : Word) : (s.raise c i).pc = s.pc := rfl
@[simp] theorem State.raise_ir (s : State) (c : FaultCause) (i : Word) : (s.raise c i).ir = s.ir := rfl
@[simp] theorem State.raise_psr (s : State) (c : FaultCause) (i : Word) : (s.raise c i).psr = s.psr := rfl
@[simp] theorem State.raise_mem (s : State) (c : FaultCause) (i : Word) : (s.raise c i).mem = s.mem := rfl
@[simp] theorem State.raise_status (s : State) (c : FaultCause) (i : Word) : (s.raise c i).status = .faulted := rfl
@[simp] theorem State.raise_faultCause (s : State) (c : FaultCause) (i : Word) : (s.raise c i).faultCause = c := rfl
@[simp] theorem State.raise_faultInfo (s : State) (c : FaultCause) (i : Word) : (s.raise c i).faultInfo = i := rfl
@[simp] theorem State.raise_services (s : State) (c : FaultCause) (i : Word) : (s.raise c i).services = s.services := rfl
@[simp] theorem State.raise_cfg (s : State) (c : FaultCause) (i : Word) : (s.raise c i).cfg = s.cfg := rfl

@[simp] theorem State.noteService_regs (s : State) (q : ServiceRequest) : (s.noteService q).regs = s.regs := rfl
@[simp] theorem State.noteService_pc (s : State) (q : ServiceRequest) : (s.noteService q).pc = s.pc := rfl
@[simp] theorem State.noteService_ir (s : State) (q : ServiceRequest) : (s.noteService q).ir = s.ir := rfl
@[simp] theorem State.noteService_psr (s : State) (q : ServiceRequest) : (s.noteService q).psr = s.psr := rfl
@[simp] theorem State.noteService_mem (s : State) (q : ServiceRequest) : (s.noteService q).mem = s.mem := rfl
@[simp] theorem State.noteService_status (s : State) (q : ServiceRequest) : (s.noteService q).status = s.status := rfl
@[simp] theorem State.noteService_faultCause (s : State) (q : ServiceRequest) : (s.noteService q).faultCause = s.faultCause := rfl
@[simp] theorem State.noteService_faultInfo (s : State) (q : ServiceRequest) : (s.noteService q).faultInfo = s.faultInfo := rfl
@[simp] theorem State.noteService_services (s : State) (q : ServiceRequest) : (s.noteService q).services = q :: s.services := rfl
@[simp] theorem State.noteService_cfg (s : State) (q : ServiceRequest) : (s.noteService q).cfg = s.cfg := rfl

@[simp] theorem State.setcc_regs (s : State) (v : Word) : (s.setcc v).regs = s.regs := rfl
@[simp] theorem State.setcc_pc (s : State) (v : Word) : (s.setcc v).pc = s.pc := rfl
@[simp] theorem State.setcc_ir (s : State) (v : Word) : (s.setcc v).ir = s.ir := rfl
@[simp] theorem State.setcc_psr (s : State) (v : Word) : (s.setcc v).psr = s.psr.extractLsb' 3 13 ++ flagsOf v := rfl
@[simp] theorem State.setcc_mem (s : State) (v : Word) : (s.setcc v).mem = s.mem := rfl
@[simp] theorem State.setcc_status (s : State) (v : Word) : (s.setcc v).status = s.status := rfl
@[simp] theorem State.setcc_faultCause (s : State) (v : Word) : (s.setcc v).faultCause = s.faultCause := rfl
@[simp] theorem State.setcc_faultInfo (s : State) (v : Word) : (s.setcc v).faultInfo = s.faultInfo := rfl
@[simp] theorem State.setcc_services (s : State) (v : Word) : (s.setcc v).services = s.services := rfl
@[simp] theorem State.setcc_cfg (s : State) (v : Word) : (s.setcc v).cfg = s.cfg := rfl

@[simp] theorem State.writeResult_regs (s : State) (r : Reg) (v : Word) : (s.writeResult r v).regs = s.regs.set r v := rfl
@[simp] theorem State.writeResult_pc (s : State) (r : Reg) (v : Word) : (s.writeResult r v).pc = s.pc := rfl
@[simp] theorem State.writeResult_ir (s : State) (r : Reg) (v : Word) : (s.writeResult r v).ir = s.ir := rfl
@[simp] theorem State.writeResult_psr (s : State) (r : Reg) (v : Word) : (s.writeResult r v).psr = s.psr.extractLsb' 3 13 ++ flagsOf v := rfl
@[simp] theorem State.writeResult_mem (s : State) (r : Reg) (v : Word) : (s.writeResult r v).mem = s.mem := rfl
@[simp] theorem State.writeResult_status (s : State) (r : Reg) (v : Word) : (s.writeResult r v).status = s.status := rfl
@[simp] theorem State.writeResult_faultCause (s : State) (r : Reg) (v : Word) : (s.writeResult r v).faultCause = s.faultCause := rfl
@[simp] theorem State.writeResult_faultInfo (s : State) (r : Reg) (v : Word) : (s.writeResult r v).faultInfo = s.faultInfo := rfl
@[simp] theorem State.writeResult_services (s : State) (r : Reg) (v : Word) : (s.writeResult r v).services = s.services := rfl
@[simp] theorem State.writeResult_cfg (s : State) (r : Reg) (v : Word) : (s.writeResult r v).cfg = s.cfg := rfl

@[simp] theorem State.userMode_writeReg (s : State) (r : Reg) (v : Word) : (s.writeReg r v).userMode = s.userMode := rfl
@[simp] theorem State.privileged_writeReg (s : State) (r : Reg) (v : Word) (x : Word) :
    (s.writeReg r v).privileged x = s.privileged x := rfl
@[simp] theorem State.refuses_writeReg (s : State) (r : Reg) (v : Word) (x : Word) :
    (s.writeReg r v).refuses x = s.refuses x := rfl
@[simp] theorem State.readReg_setPc (s : State) (a : Word) (x : Reg) :
    (s.setPc a).readReg x = s.readReg x := rfl
@[simp] theorem State.userMode_setPc (s : State) (a : Word) : (s.setPc a).userMode = s.userMode := rfl
@[simp] theorem State.privileged_setPc (s : State) (a : Word) (x : Word) :
    (s.setPc a).privileged x = s.privileged x := rfl
@[simp] theorem State.refuses_setPc (s : State) (a : Word) (x : Word) :
    (s.setPc a).refuses x = s.refuses x := rfl
@[simp] theorem State.readReg_setIr (s : State) (w : Word) (x : Reg) :
    (s.setIr w).readReg x = s.readReg x := rfl
@[simp] theorem State.userMode_setIr (s : State) (w : Word) : (s.setIr w).userMode = s.userMode := rfl
@[simp] theorem State.privileged_setIr (s : State) (w : Word) (x : Word) :
    (s.setIr w).privileged x = s.privileged x := rfl
@[simp] theorem State.refuses_setIr (s : State) (w : Word) (x : Word) :
    (s.setIr w).refuses x = s.refuses x := rfl
@[simp] theorem State.readReg_setMem (s : State) (a v : Word) (x : Reg) :
    (s.setMem a v).readReg x = s.readReg x := rfl
@[simp] theorem State.userMode_setMem (s : State) (a v : Word) : (s.setMem a v).userMode = s.userMode := rfl
@[simp] theorem State.privileged_setMem (s : State) (a v : Word) (x : Word) :
    (s.setMem a v).privileged x = s.privileged x := rfl
@[simp] theorem State.refuses_setMem (s : State) (a v : Word) (x : Word) :
    (s.setMem a v).refuses x = s.refuses x := rfl
@[simp] theorem State.readReg_setStatus (s : State) (st : Status) (x : Reg) :
    (s.setStatus st).readReg x = s.readReg x := rfl
@[simp] theorem State.userMode_setStatus (s : State) (st : Status) : (s.setStatus st).userMode = s.userMode := rfl
@[simp] theorem State.privileged_setStatus (s : State) (st : Status) (x : Word) :
    (s.setStatus st).privileged x = s.privileged x := rfl
@[simp] theorem State.refuses_setStatus (s : State) (st : Status) (x : Word) :
    (s.setStatus st).refuses x = s.refuses x := rfl
@[simp] theorem State.readReg_raise (s : State) (c : FaultCause) (i : Word) (x : Reg) :
    (s.raise c i).readReg x = s.readReg x := rfl
@[simp] theorem State.userMode_raise (s : State) (c : FaultCause) (i : Word) : (s.raise c i).userMode = s.userMode := rfl
@[simp] theorem State.privileged_raise (s : State) (c : FaultCause) (i : Word) (x : Word) :
    (s.raise c i).privileged x = s.privileged x := rfl
@[simp] theorem State.refuses_raise (s : State) (c : FaultCause) (i : Word) (x : Word) :
    (s.raise c i).refuses x = s.refuses x := rfl
@[simp] theorem State.readReg_noteService (s : State) (q : ServiceRequest) (x : Reg) :
    (s.noteService q).readReg x = s.readReg x := rfl
@[simp] theorem State.userMode_noteService (s : State) (q : ServiceRequest) : (s.noteService q).userMode = s.userMode := rfl
@[simp] theorem State.privileged_noteService (s : State) (q : ServiceRequest) (x : Word) :
    (s.noteService q).privileged x = s.privileged x := rfl
@[simp] theorem State.refuses_noteService (s : State) (q : ServiceRequest) (x : Word) :
    (s.noteService q).refuses x = s.refuses x := rfl
@[simp] theorem State.readReg_setcc (s : State) (v : Word) (x : Reg) :
    (s.setcc v).readReg x = s.readReg x := rfl
@[simp] theorem State.privileged_setcc (s : State) (v : Word) (x : Word) :
    (s.setcc v).privileged x = s.privileged x := rfl
@[simp] theorem State.privileged_writeResult (s : State) (r : Reg) (v : Word) (x : Word) :
    (s.writeResult r v).privileged x = s.privileged x := rfl

end Sys2Proof.Machine
end

