-- ==== Sys2Proof/Laws/Ops.lean ====
section
/-! SUPPORT. One lemma for each shared operation that says everything it can do: register file, access
check, memory access, flags, extension, trap service, fetch. -/

namespace Sys2Proof

namespace Machine

/-- Reading a register after writing one: the value written, or what it held before. -/
theorem Regs.get_set (f : Regs) (r q : Reg) (v : Word) :
    (f.set r v).get q = if q = r then v else f.get q := by
  cases r <;> cases q <;> rfl

@[simp] theorem Regs.get_set_same (f : Regs) (r : Reg) (v : Word) : (f.set r v).get r = v := by
  rw [Regs.get_set, if_pos rfl]

/-- Two register files that read the same are the same. -/
theorem Regs.eq_of_get {f g : Regs} (h : ∀ r, f.get r = g.get r) : f = g := by
  cases f; cases g
  simp only [Regs.mk.injEq]
  exact ⟨h .r0, h .r1, h .r2, h .r3, h .r4, h .r5, h .r6, h .r7⟩

/-- Reading a register of the state after writing one (R14). -/
theorem State.readReg_writeReg (s : State) (r q : Reg) (v : Word) :
    (s.writeReg r v).readReg q = if q = r then v else s.readReg q := Regs.get_set ..

@[simp] theorem State.readReg_writeReg_same (s : State) (r : Reg) (v : Word) :
    (s.writeReg r v).readReg r = v := Regs.get_set_same ..

/-- Writing a register changes no other one. -/
theorem State.sameRegsBut_writeReg (s : State) (r : Reg) (v : Word) :
    SameRegsBut [r] s (s.writeReg r v) := fun q hq => by
  rw [State.readReg_writeReg, if_neg (by simpa using hq)]

/-- Reading a register after an instruction's common end (R28). -/
theorem State.readReg_writeResult (s : State) (r q : Reg) (v : Word) :
    (s.writeResult r v).readReg q = if q = r then v else s.readReg q := Regs.get_set ..

/-- The check passes exactly on the addresses the engine may access (R44). -/
theorem State.refuses_eq_false_iff (s : State) (a : Word) : s.refuses a = false ↔ s.MayAccess a := by
  simp only [State.refuses, State.MayAccess, State.userMode, State.privileged]
  cases s.psr.getLsbD 15 <;> simp

/-- Entering a fault changes the run state and nothing else (R160). -/
theorem State.faultEntered_raise (s : State) (c : FaultCause) (i : Word) :
    FaultEntered c i s (s.raise c i) :=
  ⟨rfl, rfl, rfl, fun _ _ => rfl, rfl, rfl, rfl, fun _ => rfl, rfl, rfl⟩

/-- A checked read that is allowed continues with the word read (R45). -/
theorem State.withMemRead_of_mayAccess {s : State} {a : Word} (h : s.MayAccess a)
    (rest : Word → State) : s.withMemRead a rest = rest (s.mem.read a) := by
  rw [State.withMemRead, (State.refuses_eq_false_iff s a).2 h]; rfl

/-- A checked read that is refused raises and performs nothing else (R45). -/
theorem State.withMemRead_of_not_mayAccess {s : State} {a : Word} (h : ¬ s.MayAccess a)
    (rest : Word → State) : s.withMemRead a rest = s.raise .accessViolation a := by
  rw [← State.refuses_eq_false_iff, Bool.not_eq_false] at h
  rw [State.withMemRead, if_pos h]

/-- Everything a checked read can do (R45). -/
theorem State.withMemRead_cases (s : State) (a : Word) (rest : Word → State) :
    (s.MayAccess a ∧ s.withMemRead a rest = rest (s.mem.read a)) ∨
      (¬ s.MayAccess a ∧ s.withMemRead a rest = s.raise .accessViolation a) := by
  by_cases h : s.MayAccess a
  · exact .inl ⟨h, State.withMemRead_of_mayAccess h rest⟩
  · exact .inr ⟨h, State.withMemRead_of_not_mayAccess h rest⟩

/-- Everything a checked write can do (R46). -/
theorem State.memWrite_cases (s : State) (a v : Word) :
    (s.MayAccess a ∧ s.memWrite a v = s.setMem a v) ∨
      (¬ s.MayAccess a ∧ s.memWrite a v = s.raise .accessViolation a) := by
  unfold State.memWrite
  by_cases h : s.refuses a
  · refine .inr ⟨?_, if_pos h⟩
    rw [← State.refuses_eq_false_iff, h]; exact Bool.noConfusion
  · have h := Bool.not_eq_true _ ▸ h
    exact .inl ⟨(State.refuses_eq_false_iff s a).1 h, by simp [h]⟩

/-- A bit of PSR after `setcc`: one of the three flags, or what it was (R27). -/
theorem State.setcc_psr_bit (s : State) (v : Word) (k : Nat) :
    (s.setcc v).psr.getLsbD k = if k < 3 then (flagsOf v).getLsbD k else s.psr.getLsbD k := by
  simp only [State.setcc_psr, BitVec.getLsbD_append, BitVec.getLsbD_extractLsb']
  by_cases hk : k < 3
  · simp [hk]
  · by_cases h16 : k < 16
    · simp [hk, show k - 3 < 13 by omega, show 3 + (k - 3) = k by omega]
    · simp [hk, show ¬ k - 3 < 13 by omega, BitVec.getLsbD_of_ge s.psr k (by omega)]

/-- PSR[2:0] after `setcc` (R27). -/
@[simp] theorem State.flags_setcc (s : State) (v : Word) : (s.setcc v).flags = flagsOf v := by
  apply BitVec.eq_of_getLsbD_eq
  intro i hi
  rw [State.flags, BitVec.getLsbD_extractLsb', State.setcc_psr_bit]
  simp [hi]

/-- `flagsOf` is one-hot and says zero, negative or positive (R27). -/
theorem flagsOf_cases (v : Word) :
    (v = 0x0000#16 ∧ flagsOf v = 0b010#3) ∨
      (v ≠ 0x0000#16 ∧ v.getLsbD 15 = true ∧ flagsOf v = 0b100#3) ∨
      (v ≠ 0x0000#16 ∧ v.getLsbD 15 = false ∧ flagsOf v = 0b001#3) := by
  unfold flagsOf
  by_cases h : v = 0x0000#16
  · exact .inl ⟨h, if_pos h⟩
  · cases hn : v.getLsbD 15 <;> simp [h]

/-- The updater classifies its value and keeps the rest of PSR (R27). -/
theorem State.flagsFollow_setcc (s : State) (v : Word) : FlagsFollow v s (s.setcc v) := by
  refine ⟨?_, ?_, ?_, fun k hk => ?_⟩
  all_goals rw [State.setcc_psr_bit]
  · rcases flagsOf_cases v with ⟨rfl, h⟩ | ⟨hz, hn, h⟩ | ⟨hz, hn, h⟩ <;> rw [h] <;> simp_all
  · rcases flagsOf_cases v with ⟨rfl, h⟩ | ⟨hz, hn, h⟩ | ⟨hz, hn, h⟩ <;> rw [h] <;> simp_all
  · rcases flagsOf_cases v with ⟨rfl, h⟩ | ⟨hz, hn, h⟩ | ⟨hz, hn, h⟩ <;> rw [h] <;> simp_all
  · rw [if_neg (by omega)]

/-- The common end of the six flag-setting instructions: the result, its flags, and nothing else
(R28, R90, R100). -/
theorem State.writeResult_spec (s : State) (dr : Reg) (v : Word) :
    (s.writeResult dr v).readReg dr = v ∧ SameRegsBut [dr] s (s.writeResult dr v) ∧
      FlagsFollow v s (s.writeResult dr v) ∧ (s.writeResult dr v).pc = s.pc ∧
      SameMem s (s.writeResult dr v) ∧ SameRest s (s.writeResult dr v) :=
  ⟨Regs.get_set_same .., State.sameRegsBut_writeReg s dr v,
    State.flagsFollow_setcc (s.writeReg dr v) v, rfl, fun _ => rfl, rfl, rfl, rfl, rfl, rfl, rfl⟩

/-- Everything serving a request can do: one request recorded, and R0 kept or replaced (R142). -/
theorem State.serve_cases (s : State) (vect : Word) :
    let q : ServiceRequest := ⟨vect, s.readReg .r0⟩
    (Config.trapService s.services q s.mem = .noWrite ∧ s.serve vect = s.noteService q) ∨
      ∃ v, Config.trapService s.services q s.mem = .writeR0 v ∧
        s.serve vect = (s.noteService q).writeReg .r0 v := by
  intro q
  have e : s.serve vect = (s.noteService q).applyReply (Config.trapService s.services q s.mem) := rfl
  cases h : Config.trapService s.services q s.mem with
  | noWrite => exact .inl ⟨rfl, by rw [e, h]; rfl⟩
  | writeR0 v => exact .inr ⟨v, rfl, by rw [e, h]; rfl⟩

/-- Everything the fetch part of a step can do (R184, R191). -/
theorem State.fetch_cases (s : State) :
    (s.status ≠ .running ∧ s.fetch = .over s) ∨
      (s.status = .running ∧ ¬ s.MayAccess s.pc ∧ s.fetch = .over (s.raise .accessViolation s.pc)) ∨
      (s.status = .running ∧ s.MayAccess s.pc ∧ s.pc = 0xFFFF#16 ∧
        s.fetch = .over ((s.setIr (s.mem.read s.pc)).setStatus .ended)) ∨
      (s.status = .running ∧ s.MayAccess s.pc ∧ s.pc ≠ 0xFFFF#16 ∧
        s.fetch = .ready ((s.setIr (s.mem.read s.pc)).setPc (s.pc + 1))) := by
  rw [← State.refuses_eq_false_iff]
  unfold State.fetch
  cases hs : s.status <;> cases hr : s.refuses s.pc <;> by_cases hp : s.pc = 0xFFFF#16 <;>
    simp_all

/-- Everything a step can do (R184, R191): nothing, a refused fetch, the end of memory, or the decoded
instruction on the state the fetch left. -/
theorem step_cases (s : State) :
    (s.status ≠ .running ∧ step s = .next s) ∨
      (s.status = .running ∧ ¬ s.MayAccess s.pc ∧ step s = .next (s.raise .accessViolation s.pc)) ∨
      (s.status = .running ∧ s.MayAccess s.pc ∧ s.pc = 0xFFFF#16 ∧
        step s = .next ((s.setIr (s.mem.read s.pc)).setStatus .ended)) ∨
      (s.status = .running ∧ s.MayAccess s.pc ∧ s.pc ≠ 0xFFFF#16 ∧
        step s = exec (decode (s.mem.read s.pc))
          ((s.setIr (s.mem.read s.pc)).setPc (s.pc + 1))) := by
  unfold step
  rcases State.fetch_cases s with ⟨h, e⟩ | ⟨h, hm, e⟩ | ⟨h, hm, hp, e⟩ | ⟨h, hm, hp, e⟩ <;> rw [e]
  · exact .inl ⟨h, rfl⟩
  · exact .inr (.inl ⟨h, hm, rfl⟩)
  · exact .inr (.inr (.inl ⟨h, hm, hp, rfl⟩))
  · exact .inr (.inr (.inr ⟨h, hm, hp, rfl⟩))

end Machine
end Sys2Proof
end

