-- ==== Sys2Proof/Laws/Exec.lean ====
section
/-! SUPPORT. Once for all: what each instruction can do to a state, as a relation with one rule per outcome
(R91 to R145), and the inversion of `exec` into it, so that no later proof splits the branches of a meaning
again. -/

namespace Sys2Proof.Machine

/-- `Effect i s t`: instruction `i` may take the state the fetch left, `s`, to `t`. -/
inductive Effect : Instr → State → State → Prop where
  | brTaken {n z p : Bool} {off9 : BitVec 9} {s : State} (h : s.branchTaken n z p = true) :
      Effect (.br n z p off9) s (s.setPc (s.pcRel off9))
  | brNotTaken {n z p : Bool} {off9 : BitVec 9} {s : State} (h : s.branchTaken n z p = false) :
      Effect (.br n z p off9) s s
  | addReg {dr sr1 sr2 : Reg} {s : State} :
      Effect (.addReg dr sr1 sr2) s (s.writeResult dr (s.readReg sr1 + s.readReg sr2))
  | addImm {dr sr1 : Reg} {imm5 : BitVec 5} {s : State} :
      Effect (.addImm dr sr1 imm5) s (s.writeResult dr (s.readReg sr1 + sext imm5))
  | ld {dr : Reg} {off9 : BitVec 9} {s : State} (h : s.MayAccess (s.pcRel off9)) :
      Effect (.ld dr off9) s (s.writeResult dr (s.mem.read (s.pcRel off9)))
  | ldRefused {dr : Reg} {off9 : BitVec 9} {s : State} (h : ¬ s.MayAccess (s.pcRel off9)) :
      Effect (.ld dr off9) s (s.raise .accessViolation (s.pcRel off9))
  | st {sr : Reg} {off9 : BitVec 9} {s : State} (h : s.MayAccess (s.pcRel off9)) :
      Effect (.st sr off9) s (s.setMem (s.pcRel off9) (s.readReg sr))
  | stRefused {sr : Reg} {off9 : BitVec 9} {s : State} (h : ¬ s.MayAccess (s.pcRel off9)) :
      Effect (.st sr off9) s (s.raise .accessViolation (s.pcRel off9))
  | jsr {off11 : BitVec 11} {s : State} :
      Effect (.jsr off11) s ((s.writeReg .r7 s.pc).setPc (s.pcRel off11))
  | jsrr {baseR : Reg} {s : State} :
      Effect (.jsrr baseR) s ((s.writeReg .r7 s.pc).setPc ((s.writeReg .r7 s.pc).readReg baseR))
  | andReg {dr sr1 sr2 : Reg} {s : State} :
      Effect (.andReg dr sr1 sr2) s (s.writeResult dr (s.readReg sr1 &&& s.readReg sr2))
  | andImm {dr sr1 : Reg} {imm5 : BitVec 5} {s : State} :
      Effect (.andImm dr sr1 imm5) s (s.writeResult dr (s.readReg sr1 &&& sext imm5))
  | ldr {dr baseR : Reg} {off6 : BitVec 6} {s : State} (h : s.MayAccess (s.baseRel baseR off6)) :
      Effect (.ldr dr baseR off6) s (s.writeResult dr (s.mem.read (s.baseRel baseR off6)))
  | ldrRefused {dr baseR : Reg} {off6 : BitVec 6} {s : State}
      (h : ¬ s.MayAccess (s.baseRel baseR off6)) :
      Effect (.ldr dr baseR off6) s (s.raise .accessViolation (s.baseRel baseR off6))
  | str {sr baseR : Reg} {off6 : BitVec 6} {s : State} (h : s.MayAccess (s.baseRel baseR off6)) :
      Effect (.str sr baseR off6) s (s.setMem (s.baseRel baseR off6) (s.readReg sr))
  | strRefused {sr baseR : Reg} {off6 : BitVec 6} {s : State}
      (h : ¬ s.MayAccess (s.baseRel baseR off6)) :
      Effect (.str sr baseR off6) s (s.raise .accessViolation (s.baseRel baseR off6))
  | rtiUser {s : State} (h : s.userMode = true) : Effect .rti s (s.raise .privilegeViolation s.ir)
  | rtiPrivileged {s : State} (h : s.userMode = false) : Effect .rti s (s.raise .illegalOpcode s.ir)
  | not {dr sr : Reg} {s : State} : Effect (.not dr sr) s (s.writeResult dr (~~~(s.readReg sr)))
  | ldi {dr : Reg} {off9 : BitVec 9} {s : State} (h : s.MayAccess (s.pcRel off9))
      (h' : s.MayAccess (s.mem.read (s.pcRel off9))) :
      Effect (.ldi dr off9) s (s.writeResult dr (s.mem.read (s.mem.read (s.pcRel off9))))
  | ldiPointerRefused {dr : Reg} {off9 : BitVec 9} {s : State} (h : ¬ s.MayAccess (s.pcRel off9)) :
      Effect (.ldi dr off9) s (s.raise .accessViolation (s.pcRel off9))
  | ldiRefused {dr : Reg} {off9 : BitVec 9} {s : State} (h : s.MayAccess (s.pcRel off9))
      (h' : ¬ s.MayAccess (s.mem.read (s.pcRel off9))) :
      Effect (.ldi dr off9) s (s.raise .accessViolation (s.mem.read (s.pcRel off9)))
  | sti {sr : Reg} {off9 : BitVec 9} {s : State} (h : s.MayAccess (s.pcRel off9))
      (h' : s.MayAccess (s.mem.read (s.pcRel off9))) :
      Effect (.sti sr off9) s (s.setMem (s.mem.read (s.pcRel off9)) (s.readReg sr))
  | stiPointerRefused {sr : Reg} {off9 : BitVec 9} {s : State} (h : ¬ s.MayAccess (s.pcRel off9)) :
      Effect (.sti sr off9) s (s.raise .accessViolation (s.pcRel off9))
  | stiRefused {sr : Reg} {off9 : BitVec 9} {s : State} (h : s.MayAccess (s.pcRel off9))
      (h' : ¬ s.MayAccess (s.mem.read (s.pcRel off9))) :
      Effect (.sti sr off9) s (s.raise .accessViolation (s.mem.read (s.pcRel off9)))
  | jmp {baseR : Reg} {s : State} : Effect (.jmp baseR) s (s.setPc (s.readReg baseR))
  | res {s : State} : Effect .res s (s.raise .illegalOpcode s.ir)
  | lea {dr : Reg} {off9 : BitVec 9} {s : State} : Effect (.lea dr off9) s (s.writeReg dr (s.pcRel off9))
  | trapHalt {vect8 : BitVec 8} {s : State} (h : vect8 = 0x25#8) :
      Effect (.trap vect8) s (s.setStatus .halted)
  | trapNoWrite {vect8 : BitVec 8} {s : State} (h : 0x20 ≤ vect8.toNat) (h' : vect8.toNat ≤ 0x24) :
      Effect (.trap vect8) s (s.noteService ⟨zext8 vect8, s.readReg .r0⟩)
  | trapWriteR0 {vect8 : BitVec 8} {s : State} (v : Word) (h : 0x20 ≤ vect8.toNat)
      (h' : vect8.toNat ≤ 0x24) :
      Effect (.trap vect8) s ((s.noteService ⟨zext8 vect8, s.readReg .r0⟩).writeReg .r0 v)
  | trapOther {vect8 : BitVec 8} {s : State} (h : vect8.toNat < 0x20 ∨ 0x25 < vect8.toNat) :
      Effect (.trap vect8) s (s.raise .illegalTrapVector s.ir)

/-- What the trap table gives for each of the 256 vectors (R77, R140). -/
theorem ofVector?_zext8 (v : BitVec 8) :
    (v = 0x25#8 ∧ TrapRoutine.ofVector? (zext8 v) = some .halt) ∨
      ((0x20 ≤ v.toNat ∧ v.toNat ≤ 0x24) ∧
        ∃ r, r ≠ TrapRoutine.halt ∧ TrapRoutine.ofVector? (zext8 v) = some r) ∨
      ((v.toNat < 0x20 ∨ 0x25 < v.toNat) ∧ TrapRoutine.ofVector? (zext8 v) = none) := by
  have hz : (zext8 v).toNat = v.toNat := by
    have := v.isLt
    simp only [zext8, BitVec.toNat_setWidth]
    omega
  unfold TrapRoutine.ofVector?
  rw [hz]
  split <;> rename_i hv
  case h_6 => exact .inl ⟨BitVec.eq_of_toNat_eq hv, rfl⟩
  case h_7 =>
    refine .inr (.inr ⟨?_, rfl⟩)
    simp only [imp_false] at *
    omega
  all_goals exact .inr (.inl ⟨by omega, _, by decide, rfl⟩)

/-- The inversion of `exec`: a next state is one of the effects of the instruction. -/
theorem effect_of_exec {i : Instr} {s t : State} (h : exec i s = .next t) : Effect i s t := by
  cases i with
  | br n z p off9 =>
    obtain rfl := Host.Outcome.next.inj h
    by_cases hb : s.branchTaken n z p
    · rw [if_pos hb]; exact .brTaken hb
    · rw [if_neg hb]; exact .brNotTaken (Bool.not_eq_true _ ▸ hb)
  | addReg dr sr1 sr2 => obtain rfl := Host.Outcome.next.inj h; exact .addReg
  | addImm dr sr1 imm5 => obtain rfl := Host.Outcome.next.inj h; exact .addImm
  | ld dr off9 =>
    obtain rfl := Host.Outcome.next.inj h
    rcases s.withMemRead_cases (s.pcRel off9) (fun v => s.writeResult dr v) with ⟨hm, e⟩ | ⟨hm, e⟩
    · rw [e]; exact .ld hm
    · rw [e]; exact .ldRefused hm
  | st sr off9 =>
    obtain rfl := Host.Outcome.next.inj h
    rcases s.memWrite_cases (s.pcRel off9) (s.readReg sr) with ⟨hm, e⟩ | ⟨hm, e⟩
    · rw [e]; exact .st hm
    · rw [e]; exact .stRefused hm
  | jsr off11 => obtain rfl := Host.Outcome.next.inj h; exact .jsr
  | jsrr baseR => obtain rfl := Host.Outcome.next.inj h; exact .jsrr
  | andReg dr sr1 sr2 => obtain rfl := Host.Outcome.next.inj h; exact .andReg
  | andImm dr sr1 imm5 => obtain rfl := Host.Outcome.next.inj h; exact .andImm
  | ldr dr baseR off6 =>
    obtain rfl := Host.Outcome.next.inj h
    rcases s.withMemRead_cases (s.baseRel baseR off6) (fun v => s.writeResult dr v) with
      ⟨hm, e⟩ | ⟨hm, e⟩
    · rw [e]; exact .ldr hm
    · rw [e]; exact .ldrRefused hm
  | str sr baseR off6 =>
    obtain rfl := Host.Outcome.next.inj h
    rcases s.memWrite_cases (s.baseRel baseR off6) (s.readReg sr) with ⟨hm, e⟩ | ⟨hm, e⟩
    · rw [e]; exact .str hm
    · rw [e]; exact .strRefused hm
  | rti =>
    obtain rfl := Host.Outcome.next.inj h
    by_cases hu : s.userMode
    · rw [if_pos hu]; exact .rtiUser hu
    · rw [if_neg hu]; exact .rtiPrivileged (Bool.not_eq_true _ ▸ hu)
  | not dr sr => obtain rfl := Host.Outcome.next.inj h; exact .not
  | ldi dr off9 =>
    obtain rfl := Host.Outcome.next.inj h
    rcases s.withMemRead_cases (s.pcRel off9)
      (fun ea => s.withMemRead ea fun v => s.writeResult dr v) with ⟨hm, e⟩ | ⟨hm, e⟩
    · rw [e]
      rcases s.withMemRead_cases (s.mem.read (s.pcRel off9)) (fun v => s.writeResult dr v) with
        ⟨hm', e'⟩ | ⟨hm', e'⟩
      · rw [e']; exact .ldi hm hm'
      · rw [e']; exact .ldiRefused hm hm'
    · rw [e]; exact .ldiPointerRefused hm
  | sti sr off9 =>
    obtain rfl := Host.Outcome.next.inj h
    rcases s.withMemRead_cases (s.pcRel off9) (fun ea => s.memWrite ea (s.readReg sr)) with
      ⟨hm, e⟩ | ⟨hm, e⟩
    · rw [e]
      rcases s.memWrite_cases (s.mem.read (s.pcRel off9)) (s.readReg sr) with
        ⟨hm', e'⟩ | ⟨hm', e'⟩
      · rw [e']; exact .sti hm hm'
      · rw [e']; exact .stiRefused hm hm'
    · rw [e]; exact .stiPointerRefused hm
  | jmp baseR => obtain rfl := Host.Outcome.next.inj h; exact .jmp
  | res => obtain rfl := Host.Outcome.next.inj h; exact .res
  | lea dr off9 => obtain rfl := Host.Outcome.next.inj h; exact .lea
  | trap vect8 =>
    rcases ofVector?_zext8 vect8 with ⟨rfl, -⟩ | ⟨⟨h1, h2⟩, r, hr, hv⟩ | ⟨ho, hv⟩
    · obtain rfl := Host.Outcome.next.inj h; exact .trapHalt rfl
    · have e : exec (.trap vect8) s = .next (s.serve (zext8 vect8)) := by
        simp only [exec, execTrap, hv]
      obtain rfl := Host.Outcome.next.inj (e.symm.trans h)
      rcases s.serve_cases (zext8 vect8) with ⟨-, e'⟩ | ⟨v, -, e'⟩
      · rw [e']; exact .trapNoWrite h1 h2
      · rw [e']; exact .trapWriteR0 v h1 h2
    · have e : exec (.trap vect8) s = .next (s.raise .illegalTrapVector s.ir) := by
        simp only [exec, execTrap, hv]
      obtain rfl := Host.Outcome.next.inj (e.symm.trans h)
      exact .trapOther ho

end Sys2Proof.Machine
end

