-- ==== Sys2Proof/Laws/PerInstr.lean ====
section
/-! SUPPORT. The statements made per instruction.  TableRow: an instruction is well-formed, its word lies in
its own row of the opcode table, and that word is canonical (R61, R63 to R72, R76). -/

namespace Sys2Proof.Laws.TableRow

/-- What TableRow says of one instruction. -/
def Statement (i : Instr) : Prop :=
  i.wf = true ∧ i.row ∈ opcodeTable ∧ i.row.holds (encode i) = true ∧ canonicalWord (encode i) = true

/-- Every instruction's row is one of the table's. -/
theorem row_mem (i : Instr) : i.row ∈ opcodeTable := by
  cases i <;> simp [Instr.row, opcodeTable]

/-- A row holds a word when every bit of the masked word is the pattern's. -/
theorem holds_of_bits {r : Row} {w : Word}
    (h : ∀ k < 16, (w.getLsbD k && r.mask.getLsbD k) = r.pattern.getLsbD k) : r.holds w = true := by
  rw [Row.holds, beq_iff_eq]
  apply BitVec.eq_of_getLsbD_eq
  intro k hk
  rw [BitVec.getLsbD_and, h k hk]

/-- A word is canonical when every ignored bit is the fill's. -/
theorem canonical_of_bits {w m f : Word} (hm : ignoredBits w = m) (hf : canonicalFill w = f)
    (h : ∀ k < 16, (w.getLsbD k && m.getLsbD k) = f.getLsbD k) : canonicalWord w = true := by
  rw [canonicalWord, hm, hf, beq_iff_eq]
  apply BitVec.eq_of_getLsbD_eq
  intro k hk
  rw [BitVec.getLsbD_and, h k hk]

/-- A word whose opcode's format ignores nothing is canonical. -/
theorem canonical_of_opcode {w : Word} {op : BitVec 4} (h : w.extractLsb' 12 4 = op)
    (hop : (Opcode.ofCode op) ∈ [Opcode.br, .ld, .st, .ldr, .str, .ldi, .sti, .lea]) :
    canonicalWord w = true := by
  have hw : opcodeOf w = Opcode.ofCode op := by rw [opcodeOf, h]
  simp only [List.mem_cons, List.not_mem_nil, or_false] at hop
  rcases hop with e | e | e | e | e | e | e | e <;> rw [e] at hw <;>
    simp [canonicalWord, ignoredBits, canonicalFill, hw]

theorem br (n z p : Bool) (off9 : BitVec 9) : Statement (.br n z p off9) := by
  refine ⟨rfl, row_mem _, holds_of_bits fun k hk => ?_, canonical_of_opcode (br_op ..) (by decide)⟩
  simp only [encode, Instr.row, BitVec.getLsbD_append]
  interval_cases k <;> simp

theorem addReg (dr sr1 sr2 : Reg) : Statement (.addReg dr sr1 sr2) := by
  have hop : opcodeOf (encode (Instr.addReg dr sr1 sr2)) = Opcode.ofCode _ :=
    congrArg Opcode.ofCode (opr_op ..)
  have hm : (encode (Instr.addReg dr sr1 sr2)).getLsbD 5 = _ := opr_m ..
  refine ⟨rfl, row_mem _, holds_of_bits fun k hk => ?_,
    canonical_of_bits (m := 0x0018) (f := 0x0000)
      (by rw [ignoredBits, hop]; show (if _ then _ else _) = _; rw [hm]; rfl)
      (by simp [canonicalFill, hop, Opcode.ofCode]) fun k hk => ?_⟩
  all_goals simp only [encode, Instr.row, BitVec.getLsbD_append]
  all_goals interval_cases k <;> simp

theorem addImm (dr sr1 : Reg) (imm5 : BitVec 5) : Statement (.addImm dr sr1 imm5) := by
  have hop : opcodeOf (encode (Instr.addImm dr sr1 imm5)) = Opcode.ofCode _ :=
    congrArg Opcode.ofCode (opi_op ..)
  have hm : (encode (Instr.addImm dr sr1 imm5)).getLsbD 5 = _ := opi_m ..
  refine ⟨rfl, row_mem _, holds_of_bits fun k hk => ?_,
    canonical_of_bits (m := 0x0000) (f := 0x0000)
      (by rw [ignoredBits, hop]; show (if _ then _ else _) = _; rw [hm]; rfl)
      (by simp [canonicalFill, hop, Opcode.ofCode]) fun k hk => ?_⟩
  all_goals simp only [encode, Instr.row, BitVec.getLsbD_append]
  all_goals interval_cases k <;> simp

theorem ld (dr : Reg) (off9 : BitVec 9) : Statement (.ld dr off9) := by
  refine ⟨rfl, row_mem _, holds_of_bits fun k hk => ?_, canonical_of_opcode (pc9_op ..) (by decide)⟩
  simp only [encode, Instr.row, BitVec.getLsbD_append]
  interval_cases k <;> simp

theorem st (sr : Reg) (off9 : BitVec 9) : Statement (.st sr off9) := by
  refine ⟨rfl, row_mem _, holds_of_bits fun k hk => ?_, canonical_of_opcode (pc9_op ..) (by decide)⟩
  simp only [encode, Instr.row, BitVec.getLsbD_append]
  interval_cases k <;> simp

theorem jsr (off11 : BitVec 11) : Statement (.jsr off11) := by
  have hop : opcodeOf (encode (Instr.jsr off11)) = Opcode.ofCode _ :=
    congrArg Opcode.ofCode (jsr11_op ..)
  have hm : (encode (Instr.jsr off11)).getLsbD 11 = _ := jsr11_m ..
  refine ⟨rfl, row_mem _, holds_of_bits fun k hk => ?_,
    canonical_of_bits (m := 0x0000) (f := 0x0000)
      (by rw [ignoredBits, hop]; show (if _ then _ else _) = _; rw [hm]; rfl)
      (by simp [canonicalFill, hop, Opcode.ofCode]) fun k hk => ?_⟩
  all_goals simp only [encode, Instr.row, BitVec.getLsbD_append]
  all_goals interval_cases k <;> simp

theorem jsrr (baseR : Reg) : Statement (.jsrr baseR) :=
  ⟨rfl, row_mem _, by cases baseR <;> decide⟩

theorem andReg (dr sr1 sr2 : Reg) : Statement (.andReg dr sr1 sr2) := by
  have hop : opcodeOf (encode (Instr.andReg dr sr1 sr2)) = Opcode.ofCode _ :=
    congrArg Opcode.ofCode (opr_op ..)
  have hm : (encode (Instr.andReg dr sr1 sr2)).getLsbD 5 = _ := opr_m ..
  refine ⟨rfl, row_mem _, holds_of_bits fun k hk => ?_,
    canonical_of_bits (m := 0x0018) (f := 0x0000)
      (by rw [ignoredBits, hop]; show (if _ then _ else _) = _; rw [hm]; rfl)
      (by simp [canonicalFill, hop, Opcode.ofCode]) fun k hk => ?_⟩
  all_goals simp only [encode, Instr.row, BitVec.getLsbD_append]
  all_goals interval_cases k <;> simp

theorem andImm (dr sr1 : Reg) (imm5 : BitVec 5) : Statement (.andImm dr sr1 imm5) := by
  have hop : opcodeOf (encode (Instr.andImm dr sr1 imm5)) = Opcode.ofCode _ :=
    congrArg Opcode.ofCode (opi_op ..)
  have hm : (encode (Instr.andImm dr sr1 imm5)).getLsbD 5 = _ := opi_m ..
  refine ⟨rfl, row_mem _, holds_of_bits fun k hk => ?_,
    canonical_of_bits (m := 0x0000) (f := 0x0000)
      (by rw [ignoredBits, hop]; show (if _ then _ else _) = _; rw [hm]; rfl)
      (by simp [canonicalFill, hop, Opcode.ofCode]) fun k hk => ?_⟩
  all_goals simp only [encode, Instr.row, BitVec.getLsbD_append]
  all_goals interval_cases k <;> simp

theorem ldr (dr baseR : Reg) (off6 : BitVec 6) : Statement (.ldr dr baseR off6) := by
  refine ⟨rfl, row_mem _, holds_of_bits fun k hk => ?_, canonical_of_opcode (base6_op ..) (by decide)⟩
  simp only [encode, Instr.row, BitVec.getLsbD_append]
  interval_cases k <;> simp

theorem str (sr baseR : Reg) (off6 : BitVec 6) : Statement (.str sr baseR off6) := by
  refine ⟨rfl, row_mem _, holds_of_bits fun k hk => ?_, canonical_of_opcode (base6_op ..) (by decide)⟩
  simp only [encode, Instr.row, BitVec.getLsbD_append]
  interval_cases k <;> simp

theorem rti : Statement .rti := ⟨rfl, row_mem _, by decide⟩

theorem not (dr sr : Reg) : Statement (.not dr sr) :=
  ⟨rfl, row_mem _, by cases dr <;> cases sr <;> decide⟩

theorem ldi (dr : Reg) (off9 : BitVec 9) : Statement (.ldi dr off9) := by
  refine ⟨rfl, row_mem _, holds_of_bits fun k hk => ?_, canonical_of_opcode (pc9_op ..) (by decide)⟩
  simp only [encode, Instr.row, BitVec.getLsbD_append]
  interval_cases k <;> simp

theorem sti (sr : Reg) (off9 : BitVec 9) : Statement (.sti sr off9) := by
  refine ⟨rfl, row_mem _, holds_of_bits fun k hk => ?_, canonical_of_opcode (pc9_op ..) (by decide)⟩
  simp only [encode, Instr.row, BitVec.getLsbD_append]
  interval_cases k <;> simp

theorem jmp (baseR : Reg) : Statement (.jmp baseR) :=
  ⟨rfl, row_mem _, by cases baseR <;> decide⟩

theorem res : Statement .res := ⟨rfl, row_mem _, by decide⟩

theorem lea (dr : Reg) (off9 : BitVec 9) : Statement (.lea dr off9) := by
  refine ⟨rfl, row_mem _, holds_of_bits fun k hk => ?_, canonical_of_opcode (pc9_op ..) (by decide)⟩
  simp only [encode, Instr.row, BitVec.getLsbD_append]
  interval_cases k <;> simp

theorem trap (vect8 : BitVec 8) : Statement (.trap vect8) := by
  have hop : opcodeOf (encode (Instr.trap vect8)) = Opcode.ofCode _ :=
    congrArg Opcode.ofCode (trap_op ..)
  refine ⟨rfl, row_mem _, holds_of_bits fun k hk => ?_,
    canonical_of_bits (m := 0x0F00) (f := 0x0000)
      (by simp [ignoredBits, hop, Opcode.ofCode])
      (by simp [canonicalFill, hop, Opcode.ofCode]) fun k hk => ?_⟩
  all_goals simp only [encode, Instr.row, BitVec.getLsbD_append]
  all_goals interval_cases k <;> simp

end Sys2Proof.Laws.TableRow
end

