-- ==== Sys2Proof/Tests/Slice0.lean ====
section
/-! SUPPORT. Tests on fixed values, their expected results taken from spec/95_test_vectors.md and the worked
examples of the rules, and, for each statement with hypotheses, a witness that meets them. -/

namespace Sys2Proof.Tests

open Sys2Proof Sys2Proof.Machine

/-! ### Well-formedness: an ill-formed word for each check, and one canonical word beside it -/

/-- R76: each format with ignored bits refuses a word whose ignored bits are not canonical: OPR 4:3 of
ADD and AND, JSRR 10:9 and 5:0, NOT 5:0, JMP 11:9 and 5:0, TRAP 11:8, NOARG of RTI and RES. -/
theorem test_noncanonical_words_refused :
    [0x1249#16, 0x5409#16, 0x46C0#16, 0x40C1#16, 0x9240#16, 0xCE80#16, 0xC081#16, 0xFF25#16, 0x8001#16,
      0xD123#16].map canonicalWord = List.replicate 10 false := by decide

/-- R76: the canonical words of the examples are accepted. -/
theorem test_canonical_words_accepted :
    [0x1241#16, 0x5401#16, 0x40C0#16, 0x927F#16, 0xC080#16, 0xF025#16, 0x8000#16, 0xD000#16, 0x0000#16,
      0x4802#16].map canonicalWord = List.replicate 10 true := by decide

/-- R62, R74: `Instr.wf` refuses nothing, because every operand type is exactly its field's range. -/
theorem test_every_instruction_wellformed (i : Instr) : i.wf = true := by cases i <;> rfl

/-- The canonical form of memory refuses a zero cell, cells out of order and a cell that does not exist. -/
theorem test_illformed_memories_refused :
    ¬ Memory.wf [(2, 0#8)] ∧ ¬ Memory.wf [(3, 1#8), (2, 1#8)] ∧ ¬ Memory.wf [(2, 1#8), (2, 1#8)] ∧
      ¬ Memory.wf [(0x20000, 1#8)] ∧ Memory.wf [(2, 1#8), (0x1FFFF, 2#8)] := by decide

/-! ### Decoding: one word for each constructor, written out from its format; ignored bits -/

/-- R68, example of R120. -/
theorem test_decode_br : decode 0b0000_001_111111101#16 = .br false false true 0x1FD#9 := by decide

/-- R63, source example: 0x1401 is ADD R2, R0, R1. -/
theorem test_decode_addReg : decode 0b0001_010_000_0_00_001#16 = .addReg .r2 .r0 .r1 := by decide

/-- R64, source example: 0x1264 is ADD R1, R1, b0100. -/
theorem test_decode_addImm : decode 0b0001_001_001_1_00100#16 = .addImm .r1 .r1 0b00100#5 := by decide

/-- R66, example of R101. -/
theorem test_decode_ld : decode 0b0010_000_000001001#16 = .ld .r0 9#9 := by decide

/-- R66, example of R111. -/
theorem test_decode_st : decode 0b0011_001_000000111#16 = .st .r1 7#9 := by decide

/-- R70, example of R123. -/
theorem test_decode_jsr : decode 0b0100_1_00000000010#16 = .jsr 2#11 := by decide

/-- R70, example of R124. -/
theorem test_decode_jsrr : decode 0b0100_0_00_011_000000#16 = .jsrr .r3 := by decide

/-- R63, example of R93. -/
theorem test_decode_andReg : decode 0b0101_010_000_0_00_001#16 = .andReg .r2 .r0 .r1 := by decide

/-- R64, vector 0x52B0 of L2.3. -/
theorem test_decode_andImm : decode 0b0101_001_010_1_10000#16 = .andImm .r1 .r2 0b10000#5 := by decide

/-- R67, example of R103. -/
theorem test_decode_ldr : decode 0b0110_011_010_000001#16 = .ldr .r3 .r2 1#6 := by decide

/-- R67, example of R113. -/
theorem test_decode_str : decode 0b0111_011_010_000010#16 = .str .r3 .r2 2#6 := by decide

/-- R72: RTI. -/
theorem test_decode_rti : decode 0b1000_000000000000#16 = .rti := by decide

/-- R65, example of R130. -/
theorem test_decode_not : decode 0b1001_001_000_111111#16 = .not .r1 .r0 := by decide

/-- R66, example of R102. -/
theorem test_decode_ldi : decode 0b1010_100_000000100#16 = .ldi .r4 4#9 := by decide

/-- R66, example of R112. -/
theorem test_decode_sti : decode 0b1011_000_000000101#16 = .sti .r0 5#9 := by decide

/-- R69, R122: RET is JMP R7. -/
theorem test_decode_jmp : decode 0b1100_000_111_000000#16 = .jmp .r7 := by decide

/-- R72: RES. -/
theorem test_decode_res : decode 0b1101_000000000000#16 = .res := by decide

/-- R66, example of R104. -/
theorem test_decode_lea : decode 0b1110_010_000000101#16 = .lea .r2 5#9 := by decide

/-- R71, R77: HALT is 0xF025. -/
theorem test_decode_trap : decode 0b1111_0000_00100101#16 = .trap 0x25#8 := by decide

/-- R73, L2.3, L2.4, L2.7, L2.8: words with other ignored bits are the same instructions. -/
theorem test_decode_ignores_bits :
    decode 0x1249#16 = .addReg .r1 .r1 .r1 ∧ decode 0x9240#16 = .not .r1 .r1 ∧
      decode 0xCEBF#16 = .jmp .r2 ∧ decode 0x46C0#16 = .jsrr .r3 ∧ decode 0xFF25#16 = .trap 0x25#8 ∧
      decode 0xD123#16 = .res := by decide

/-- R60, R42: the decoder on bytes takes the lower byte first and rejects a lone byte by name. -/
theorem test_decodeBytes :
    decodeBytes [0x01#8, 0x14#8, 0x25#8] = .ok (.addReg .r2 .r0 .r1, [0x25#8]) ∧
      decodeBytes [0x25#8] = .error .truncated ∧
      decodeTableWord 16 0xF025 = some (.trap 0x25#8) := ⟨rfl, rfl, rfl⟩

/-- R1, R61, R62, R77: the decode tables read in both directions. -/
theorem test_tables :
    Opcode.ofName? "LEA" = some .lea ∧ Opcode.lea.code = 14#4 ∧ Reg.ofName? "R5" = some .r5 ∧
      TrapRoutine.ofName? "HALT" = some .halt ∧ TrapRoutine.halt.vector = 0x25#8 ∧
      TrapRoutine.inp.name = "IN" := by decide

/-! ### Small states -/

/-- Reset with one word placed at an address and PC there. -/
def boot (a w : Word) : State := (State.reset.hostLoad a w).setPc a

/-- The same, in a machine reset with `RESET_PRIV` = 0. -/
def bootPrivileged (a w : Word) : State :=
  ((State.resetWith { Config.default with resetPriv := 0#1 }).hostLoad a w).setPc a

/-- The state after one step. -/
def after (s : State) : State :=
  match step s with
  | .next t => t
  | .fault _ => s
  | .refused _ => s

/-- What the L2 tables list of a step's end: a register, PSR and PC. -/
def seen (r : Reg) (s : State) : Word × Word × Word := ((after s).readReg r, (after s).psr, (after s).pc)

/-- What the fault rows of the L2 tables list. -/
def faultSeen (s : State) : StepResult × Word × Word × Word :=
  ((after s).stepResult, (after s).pc, (after s).ir, (after s).psr)

/-! ### L2.1 and L2.2: extension and flags -/

/-- L2.1. -/
theorem test_sext :
    [sext 0x0F#5, sext 0x10#5, sext 0x1F#5, sext 0x1F#6, sext 0x20#6, sext 0x0FF#9, sext 0x100#9,
      sext 0x3FF#11, sext 0x400#11, zext8 0x25#8] =
    [0x000F#16, 0xFFF0#16, 0xFFFF#16, 0x001F#16, 0xFFE0#16, 0x00FF#16, 0xFF00#16, 0x03FF#16, 0xFC00#16,
      0x0025#16] := by decide

/-- L2.2: one value for each clause of SetccClassifiesItsValue, at the edges of its range. -/
theorem test_setcc :
    [0x0000#16, 0x0001#16, 0x7FFF#16, 0x8000#16, 0xFFFF#16].map
      (fun v => (State.reset.setcc v).psr) =
    [0x8002#16, 0x8001#16, 0x8001#16, 0x8004#16, 0x8004#16] := by decide

/-! ### L2.3 to L2.8: single steps -/

/-- L2.3: signed overflow wraps. -/
theorem test_addReg_overflow :
    seen .r2 (((boot 0x3000 0x1401).writeReg .r0 0x7FFF).writeReg .r1 0x0001) =
      (0x8000, 0x8004, 0x3001) := by decide

/-- L2.3: the same register three times, with ignored bits set. -/
theorem test_addReg_same_register :
    seen .r1 ((boot 0x3000 0x1249).writeReg .r1 0x4000) = (0x8000, 0x8004, 0x3001) := by decide

/-- L2.3: ADD R1, R1, #-1 at 0x8000. -/
theorem test_addImm_minus_one :
    seen .r1 ((boot 0x3000 0x127F).writeReg .r1 0x8000) = (0x7FFF, 0x8001, 0x3001) := by decide

/-- L2.3: the most negative imm5. -/
theorem test_addImm_minus_sixteen :
    seen .r1 ((boot 0x3000 0x1270).writeReg .r1 0x0010) = (0x0000, 0x8002, 0x3001) := by decide

/-- L2.3: AND R2, R0, R1. -/
theorem test_andReg :
    seen .r2 (((boot 0x3000 0x5401).writeReg .r0 0xF0F0).writeReg .r1 0x8FF1) =
      (0x80F0, 0x8004, 0x3001) := by decide

/-- L2.3: the immediate is sign-extended before the and. -/
theorem test_andImm_sign_extends :
    seen .r1 ((boot 0x3000 0x52B0).writeReg .r2 0xABCD) = (0xABC0, 0x8004, 0x3001) := by decide

/-- L2.3: a non-negative immediate clears bits 15:5. -/
theorem test_andImm_positive :
    seen .r1 ((boot 0x3000 0x52A7).writeReg .r2 0xABCD) = (0x0005, 0x8001, 0x3001) := by decide

/-- L2.4. -/
theorem test_not : seen .r1 ((boot 0x3000 0x923F).writeReg .r0 0x0005) = (0xFFFA, 0x8004, 0x3001) := by
  decide

/-- L2.4: in place, filler 000000. -/
theorem test_not_in_place :
    seen .r1 ((boot 0x3000 0x9240).writeReg .r1 0xFFFF) = (0x0000, 0x8002, 0x3001) := by decide

/-- L2.5. -/
theorem test_ld : seen .r0 ((boot 0x3000 0x2009).setMem 0x300A 0x0005) = (0x0005, 0x8001, 0x3001) := by
  decide

/-- L2.5: the address wraps to 0x0000, which is privileged. -/
theorem test_ld_wraps_and_faults :
    faultSeen ((boot 0xFFFE 0x2001).setMem 0x0000 0x7777) =
      (.fault .accessViolation 0x0000, 0xFFFF, 0x2001, 0x8002) := by decide

/-- L2.5: a pointer to itself. -/
theorem test_ldi_self_pointer :
    seen .r0 ((boot 0x3000 0xA001).setMem 0x3002 0x3002) = (0x3002, 0x8001, 0x3001) := by decide

/-- L2.5: the second access is refused. -/
theorem test_ldi_second_access_refused :
    faultSeen ((boot 0x3000 0xA001).setMem 0x3002 0x1000) =
      (.fault .accessViolation 0x1000, 0x3001, 0xA001, 0x8002) := by decide

/-- L2.5: DR = BaseR. -/
theorem test_ldr_follows_pointer :
    seen .r1 (((boot 0x3000 0x6240).writeReg .r1 0x3010).setMem 0x3010 0x1234) =
      (0x1234, 0x8001, 0x3001) := by decide

/-- L2.5: the address wraps below zero. -/
theorem test_ldr_wraps :
    seen .r0 ((boot 0x3000 0x607F).setMem 0xFFFF 0xBEEF) = (0xBEEF, 0x8004, 0x3001) := by decide

/-- L2.5: the flags stay Z although the result is positive. -/
theorem test_lea_own_address : seen .r0 (boot 0x3000 0xE1FF) = (0x3000, 0x8002, 0x3001) := by decide

/-- L2.5: a privileged address is computed, not accessed. -/
theorem test_lea_privileged_address : seen .r0 (boot 0x3000 0xE100) = (0x2F01, 0x8002, 0x3001) := by
  decide

/-- L2.6: a store over its own word leaves the step unaffected. -/
theorem test_st_over_itself :
    let t := after ((boot 0x3000 0x31FF).writeReg .r0 0xF025)
    (t.mem.read 0x3000, t.ir, t.pc, t.psr) = (0xF025, 0x31FF, 0x3001, 0x8002) := by decide

/-- L2.6. -/
theorem test_st :
    (after ((boot 0x3003 0x3207).writeReg .r1 0xFFFB)).mem.read 0x300B = 0xFFFB := by decide

/-- L2.6: the pointer is overwritten. -/
theorem test_sti_self_pointer :
    (after (((boot 0x3000 0xB001).setMem 0x3002 0x3002).writeReg .r0 0x1111)).mem.read 0x3002 = 0x1111 := by
  decide

/-- L2.6: the write is refused and memory keeps its value. -/
theorem test_sti_write_refused :
    let s := ((boot 0x3000 0xB001).setMem 0x3002 0x2FFF).writeReg .r0 0x1111
    (after s).stepResult = .fault .accessViolation 0x2FFF ∧ (after s).mem.read 0x2FFF = 0x0000 := by decide

/-- L2.6: SR = BaseR. -/
theorem test_str_own_base :
    (after ((boot 0x3000 0x7480).writeReg .r2 0x4000)).mem.read 0x4000 = 0x4000 := by decide

/-- L2.6: the address wraps to 0x0000, allowed in privileged mode. -/
theorem test_str_wraps_privileged :
    (after ((bootPrivileged 0x3000 0x7481).writeReg .r2 0xFFFF)).mem.read 0x0000 = 0xFFFF := by decide

/-- L2.7: BRz taken from reset, BRp not. -/
theorem test_br_taken_or_not :
    (after (boot 0x3000 0x0405)).pc = 0x3006 ∧ (after (boot 0x3005 0x03FD)).pc = 0x3006 := by decide

/-- L2.7: the target wraps. -/
theorem test_br_wraps : (after (boot 0xFFFE 0x0E01)).pc = 0x0000 := by decide

/-- L2.7: ignored bits all ones. -/
theorem test_jmp : (after ((boot 0x3000 0xCEBF).writeReg .r2 0x4000)).pc = 0x4000 := by decide

/-- L2.7: the most negative offset11. -/
theorem test_jsr : seen .r7 (boot 0x3400 0x4C00) = (0x3401, 0x8002, 0x3001) := by decide

/-- L2.7. -/
theorem test_jsrr :
    seen .r7 ((boot 0x3001 0x40C0).writeReg .r3 0x3004) = (0x3002, 0x8002, 0x3004) := by decide

/-- L2.7, P10: R7 is written before BaseR is read. -/
theorem test_jsrr_r7 :
    seen .r7 ((boot 0x3000 0x41C0).writeReg .r7 0x5555) = (0x3001, 0x8002, 0x3001) := by decide

/-- L2.8: HALT with bits 11:8 set. -/
theorem test_trap_halt : faultSeen (boot 0x3000 0xFF25) = (.halted, 0x3001, 0xFF25, 0x8002) := by decide

/-- L2.8: the vectors just outside the table. -/
theorem test_trap_bad_vectors :
    faultSeen (boot 0x3000 0xF01F) = (.fault .illegalTrapVector 0xF01F, 0x3001, 0xF01F, 0x8002) ∧
      faultSeen (boot 0x3000 0xF026) = (.fault .illegalTrapVector 0xF026, 0x3001, 0xF026, 0x8002) := by
  decide

/-- L2.8: GETC answered by `WriteR0(0x0041)` and OUT by `NoWrite`: R0 and the flags. -/
theorem test_service_replies :
    ((State.reset.applyReply (.writeR0 0x0041)).readReg .r0, (State.reset.applyReply (.writeR0 0x0041)).psr,
      (State.reset.applyReply .noWrite).readReg .r0) = (0x0041, 0x8002, 0x0000) := by decide

/-- L2.8: OUT hands one request to the environment and, whatever the reply, goes on. -/
theorem test_out_requests :
    ∃ t, step (boot 0x3000 0xF021) = .next t ∧ t.services = [⟨0x0021, 0x0000⟩] ∧ t.pc = 0x3001#16 ∧
      t.psr = 0x8002#16 := by
  refine ⟨((boot 0x3000 0xF021).setIr 0xF021 |>.setPc 0x3001).serve 0x0021, rfl, ?_⟩
  rcases State.serve_cases ((boot 0x3000 0xF021).setIr 0xF021 |>.setPc 0x3001) 0x0021 with
    ⟨-, e⟩ | ⟨v, -, e⟩ <;> rw [e] <;> exact ⟨rfl, rfl, rfl⟩

/-- L2.8: RTI in each mode. -/
theorem test_rti :
    faultSeen (boot 0x3000 0x8000) = (.fault .privilegeViolation 0x8000, 0x3001, 0x8000, 0x8002) ∧
      faultSeen (bootPrivileged 0x3000 0x8000) = (.fault .illegalOpcode 0x8000, 0x3001, 0x8000, 0x0002) := by
  decide

/-- L2.8: RES in each mode. -/
theorem test_res :
    faultSeen (boot 0x3000 0xD000) = (.fault .illegalOpcode 0xD000, 0x3001, 0xD000, 0x8002) ∧
      faultSeen (bootPrivileged 0x3000 0xD123) = (.fault .illegalOpcode 0xD123, 0x3001, 0xD123, 0x0002) := by
  decide

/-! ### The step, reset and the host -/

/-- L2.8: the refused fetch leaves PC and IR as they were. -/
theorem test_fetch_refused :
    faultSeen ((boot 0x3000 0xC000).setPc 0x0000) = (.fault .accessViolation 0x0000, 0x0000, 0x0000, 0x8002) := by
  decide

/-- R184: the word at 0xFFFF is fetched, not executed. -/
theorem test_end_of_memory : faultSeen (boot 0xFFFF 0x1023) = (.ended, 0xFFFF, 0x1023, 0x8002) := by decide

/-- R191: a stopped core changes nothing. -/
theorem test_stopped_core : after (after (boot 0x3000 0xF025)) = after (boot 0x3000 0xF025) := by decide

/-- P7: the first step from reset with nothing loaded is a branch that is never taken. -/
theorem test_first_step_from_reset : seen .r0 State.reset = (0x0000, 0x8002, 0x3001) := by decide

/-- R182, S2: the image [0x3000, 0xF025] puts HALT at 0x3000; an image for another address is refused. -/
theorem test_load_image :
    (State.reset.loadImage [0x3000, 0xF025]).map (fun s => (s.mem.read 0x3000, (s.mem.read 0x3001, s.pc))) =
        some (0xF025, (0x0000, 0x3000)) ∧
      State.reset.loadImage [0x4000, 0xF025] = none ∧
      imageOfBytes [0x00#8, 0x30#8, 0x25#8, 0xF0#8] = some [0x3000, 0xF025] := by decide

/-- R5, R32, R151: `Observe` reads the run-state registers by their codes. -/
theorem test_observe :
    let t := after (boot 0x3000 0xF000)
    (t.observe .status, t.observe .faultCause, t.observe .faultInfo, t.observe (.mem 0x3000)) =
      (3, 4, 0xF000, 0xF000) := by decide

/-! ### Witnesses: states and operands that meet the hypotheses of each statement, clause by clause -/

/-- Encoding clauses: a word of each opcode, and of each mode bit where the format has one. -/
theorem witness_encoding_clauses :
    [0x0000#16, 0x2009#16, 0x3207#16, 0x6681#16, 0x7682#16, 0x8000#16, 0x923F#16, 0xA804#16, 0xB005#16,
        0xC1C0#16, 0xD000#16, 0xE405#16, 0xF025#16].map (fun w => w.extractLsb' 12 4) =
      [0#4, 2#4, 3#4, 6#4, 7#4, 8#4, 9#4, 10#4, 11#4, 12#4, 13#4, 14#4, 15#4] ∧
    [0x1401#16, 0x1264#16, 0x5401#16, 0x52B0#16].map (fun w => (w.extractLsb' 12 4, w.getLsbD 5)) =
      [(1#4, false), (1#4, true), (5#4, false), (5#4, true)] ∧
    [0x4802#16, 0x40C0#16].map (fun w => (w.extractLsb' 12 4, w.getLsbD 11)) =
      [(4#4, true), (4#4, false)] := by decide

/-- The two sides of the privilege check at the boundary, and the privileged mode, for MemRead, MemWrite,
LD, LDR, ST, STR and the fetch (R44): 0x2FFF is refused and 0x3000 allowed in user mode. -/
theorem witness_access_clauses :
    (State.reset.psr.getLsbD 15 = true ∧ (0x2FFF#16).toNat < State.reset.cfg.privBoundary.toNat) ∧
      State.reset.MayAccess 0x3000#16 ∧
      ¬ (State.reset.psr.getLsbD 15 = true ∧ (0x3000#16).toNat < State.reset.cfg.privBoundary.toNat) ∧
      (bootPrivileged 0x3000 0x0000).MayAccess 0x0000#16 ∧ State.reset.mem.wf := by
  unfold State.MayAccess; decide

/-- LdLoadsPcRelative and StStoresPcRelative: an offset on each side of the boundary, PC = 0x3000. -/
theorem witness_pc_relative_clauses :
    State.reset.MayAccess (State.reset.pc + sext 0x000#9) ∧
      (State.reset.pc + sext 0x1FF#9).toNat < State.reset.cfg.privBoundary.toNat ∧
      State.reset.psr.getLsbD 15 = true ∧ State.reset.mem.wf := by
  unfold State.MayAccess; decide

/-- LdrLoadsBaseRelative and StrStoresBaseRelative: a base and an offset on each side of the boundary. -/
theorem witness_base_relative_clauses :
    let s := State.reset.writeReg .r1 0x3000
    s.MayAccess (s.readReg .r1 + sext 0x00#6) ∧
      (s.readReg .r1 + sext 0x3F#6).toNat < s.cfg.privBoundary.toNat ∧ s.psr.getLsbD 15 = true ∧
      s.mem.wf := by
  unfold State.MayAccess; decide

/-- LdiLoadsThroughPointer and StiStoresThroughPointer, clause by clause: both accesses allowed; the
pointer's address refused; the pointer allowed and its value refused. -/
theorem witness_indirect_clauses :
    (let s := State.reset.setMem 0x3000 0x3000
     s.mem.wf ∧ s.MayAccess (s.pc + sext 0x000#9) ∧ s.MayAccess (s.mem.read (s.pc + sext 0x000#9))) ∧
    (State.reset.psr.getLsbD 15 = true ∧
      (State.reset.pc + sext 0x1FF#9).toNat < State.reset.cfg.privBoundary.toNat) ∧
    (let s := State.reset.setMem 0x3000 0x2FFF
     s.psr.getLsbD 15 = true ∧ s.cfg.privBoundary.toNat ≤ (s.pc + sext 0x000#9).toNat ∧
       (s.mem.read (s.pc + sext 0x000#9)).toNat < s.cfg.privBoundary.toNat) := by
  unfold State.MayAccess; decide

/-- ResetLeavesTheRuledValues: a parameter record of each mode. -/
theorem witness_reset_modes :
    Config.default.resetPriv = 1#1 ∧ ({ Config.default with resetPriv := 0#1 } : Config).resetPriv = 0#1 := by
  decide

/-- BrTestsRequestedFlags and BrNeverAndAlwaysForms: a state whose only flag, Z, is requested, one whose
flag is not, and the one-flag property. -/
theorem witness_br_clauses :
    State.reset.psr.getLsbD 1 = true ∧ State.reset.psr.getLsbD 2 = false ∧ State.reset.OneFlag := by
  unfold State.OneFlag; decide

/-- JsrrLinksThenReadsBase: R7 and another register. -/
theorem witness_jsrr_clauses : Reg.r7 = .r7 ∧ Reg.r3 ≠ .r7 := by decide

/-- TrapServiceChangesOnlyR0 and TrapOtherVectorFaults at the edges of their ranges; the reply is one of
the two kinds. -/
theorem witness_trap_clauses :
    (0x20 ≤ (0x20#8).toNat ∧ (0x20#8).toNat ≤ 0x24) ∧ (0x20 ≤ (0x24#8).toNat ∧ (0x24#8).toNat ≤ 0x24) ∧
      (0x1F#8).toNat < 0x20 ∧ 0x25 < (0x26#8).toNat ∧ 0x25 < (0xFF#8).toNat := by decide

/-- TrapServiceChangesOnlyR0: whichever kind of reply the free value is, one of its two clauses applies. -/
theorem witness_trap_reply (s : State) (q : ServiceRequest) :
    Config.trapService s.services q s.mem = .noWrite ∨
      ∃ v, Config.trapService s.services q s.mem = .writeR0 v := by
  cases Config.trapService s.services q s.mem with
  | noWrite => exact .inl rfl
  | writeR0 v => exact .inr ⟨v, rfl⟩

/-- RtiAlwaysFaults: a state of each mode. -/
theorem witness_rti_modes :
    State.reset.psr.getLsbD 15 = true ∧ (bootPrivileged 0x3000 0x8000).psr.getLsbD 15 = false := by decide

/-- StepRunsTheDecodedInstruction and OnlyTransfersMovePc: reset with an ADD at PC. -/
theorem witness_step_runs :
    let s := boot 0x3000 0x1023
    s.status = .running ∧ s.MayAccess s.pc ∧ s.pc ≠ 0xFFFF#16 ∧
      decode (s.mem.read s.pc) = .addImm .r0 .r0 3#5 ∧ (Instr.addImm .r0 .r0 3#5).wf = true ∧
      (s.mem.read s.pc).extractLsb' 12 4 ∉ [0b0000#4, 0b1100#4, 0b0100#4] ∧
      ∃ t, step s = .next t := by
  refine ⟨by decide, .inr (by decide), by decide, by decide, by decide, by decide, _, rfl⟩

/-- RefusedFetchFaults: PC at the last privileged address. -/
theorem witness_fetch_refused :
    let s := State.reset.setPc 0x2FFF
    s.status = .running ∧ s.psr.getLsbD 15 = true ∧ s.pc.toNat < s.cfg.privBoundary.toNat := by decide

/-- FetchAtTopOfMemoryEnds: PC at 0xFFFF. -/
theorem witness_end_of_memory :
    let s := State.reset.setPc 0xFFFF
    s.status = .running ∧ s.MayAccess s.pc ∧ s.pc = 0xFFFF#16 := ⟨rfl, .inr (by decide), rfl⟩

/-- StoppedCoreStaysStopped: each of the three stopped states. -/
theorem witness_stopped :
    [Status.halted, .ended, .faulted].all (fun st => decide ((State.reset.setStatus st).status ≠ .running)) =
      true := by decide

/-- DecodeOfEncode and EncodeOfDecodeOnCanonicalWords: a well-formed instruction and a canonical word. -/
theorem witness_encoding_round_trips :
    (Instr.not .r1 .r0).wf = true ∧ canonicalWord 0x923F#16 = true ∧ encode (.not .r1 .r0) = 0x923F#16 := by
  decide

/-- IgnoredBitsHaveNoEffect and OpcodeRowsPartitionWords: two words that differ in ignored bits only, and
a row that holds them. -/
theorem witness_ignored_bits :
    0x1249#16 &&& ~~~ignoredBits 0x1249#16 = 0x1241#16 &&& ~~~ignoredBits 0x1249#16 ∧
      (⟨"ADD", 0x1000, 0xF020⟩ : Row) ∈ opcodeTable ∧
      (⟨"ADD", 0x1000, 0xF020⟩ : Row).holds 0x1249#16 = true := by decide

/-- InvariantKeptByEveryStep, ModeNeverChanges and ReachableStatesMeetTheInvariant: reset meets the
invariant, is reachable and takes a step. -/
theorem witness_invariant_and_step :
    State.reset.Inv ∧ Reachable Config.default State.reset ∧ ∃ t, step State.reset = .next t :=
  ⟨⟨State.reset_wf, .inr (.inl (by decide)), by decide, by decide, ⟨rfl, rfl⟩, fun _ h => nomatch h⟩,
    .loaded .reset, _, rfl⟩

/-- OnlySixOpcodesWriteFlags, RegisterWritersTable and OnlyStoresWriteMemory: executions that write a
flag, one of each group of the table, and one that is no store. -/
theorem witness_exec_groups :
    (∃ t, exec (decode 0x1023#16) State.reset = .next t ∧ t.psr ≠ State.reset.psr) ∧
      (∃ t, exec (decode 0x4802#16) State.reset = .next t) ∧
      (∃ t, exec (decode 0xF025#16) State.reset = .next t) ∧
      (∃ t, exec (decode 0x3207#16) State.reset = .next t) ∧
      (0x1023#16).extractLsb' 12 4 ∉ [0b0011#4, 0b1011#4, 0b0111#4] :=
  ⟨⟨_, rfl, by decide⟩, ⟨_, rfl⟩, ⟨_, rfl⟩, ⟨_, rfl⟩, by decide⟩

/-- HowARunEnds and FaultsArePrecise: a step to each stopped state. -/
theorem witness_run_ends :
    (∃ t, step (boot 0x3000 0xF025) = .next t ∧ t.status = .halted) ∧
      (∃ t, step (boot 0xFFFF 0x0000) = .next t ∧ t.status = .ended) ∧
      (∃ t, step (boot 0x3000 0xD000) = .next t ∧ t.status = .faulted) ∧
      (∃ t, step (boot 0x3000 0x0000) = .next t ∧ t.status ≠ .faulted) :=
  ⟨⟨_, rfl, by decide⟩, ⟨_, rfl, by decide⟩, ⟨_, rfl, by decide⟩, ⟨_, rfl, by decide⟩⟩

/-- UserModeCannotWritePrivilegedMemory: a user-mode step and a privileged address. -/
theorem witness_user_store :
    let s := boot 0x3000 0x3207
    s.mem.wf ∧ s.psr.getLsbD 15 = true ∧ (0x2FFF#16).toNat < s.cfg.privBoundary.toNat ∧
      ∃ t, step s = .next t :=
  ⟨by decide, by decide, by decide, _, rfl⟩

/-- UserModeCannotReadPrivilegedMemory: two user-mode states whose memories differ at 0x0000 only, with an
LD at PC. -/
theorem witness_two_user_states :
    let s := boot 0x3000 0x2009
    let s' := (boot 0x3000 0x2009).setMem 0x0000 0x1234
    s.mem.wf ∧ s'.mem.wf ∧ s' = { s with mem := s'.mem } ∧ s ≠ s' ∧ s.psr.getLsbD 15 = true ∧
      (∀ a : Word, s.cfg.privBoundary.toNat ≤ a.toNat → s'.mem.read a = s.mem.read a) ∧
      (∀ v8, decode (s.mem.read s.pc) = .trap v8 → v8.toNat < 0x20 ∨ 0x24 < v8.toNat) ∧
      (∃ t, step s = .next t) ∧ ∃ t', step s' = .next t' := by
  refine ⟨by decide, by decide, rfl, by decide, by decide, fun a h => ?_, fun v8 h => ?_, ⟨_, rfl⟩, _, rfl⟩
  · refine Memory.read_write_other (by decide) ?_ _
    rintro rfl
    exact absurd h (by decide)
  · have e : decode ((boot 0x3000 0x2009).mem.read (boot 0x3000 0x2009).pc) = .ld .r0 9#9 := by decide
    rw [e] at h
    exact nomatch h

/-- NoViolationWithoutProtection: each of the two ways to be without protection, with a faulting step. -/
theorem witness_no_protection :
    (let s := bootPrivileged 0x3000 0xD000
     s.status = .running ∧ s.psr.getLsbD 15 = false ∧ ∃ t, step s = .next t ∧ t.status = .faulted) ∧
    (let s := ((State.resetWith { Config.default with privBoundary := 0 }).hostLoad 0x3000 0xD000)
     s.status = .running ∧ s.cfg.privBoundary = 0x0000#16 ∧ ∃ t, step s = .next t ∧ t.status = .faulted) :=
  ⟨⟨rfl, by decide, _, rfl, by decide⟩, ⟨rfl, rfl, _, rfl, by decide⟩⟩

/-- StoredWordIsExecutedNext: reset and the lowest user address. -/
theorem witness_store_then_fetch :
    State.reset.mem.wf ∧ State.reset.status = .running ∧ State.reset.MayAccess 0x3000#16 ∧
      0x3000#16 ≠ 0xFFFF#16 := ⟨State.reset_wf, rfl, .inr (by decide), by decide⟩

/-- ImageIsLoadedAtLoadBase: an image for the load base and one for another address. -/
theorem witness_image :
    State.reset.mem.wf ∧ [0xF025#16].length ≤ 0x10000 ∧ (0x3000#16) = State.reset.cfg.resetPc ∧
      (0x4000#16) ≠ State.reset.cfg.resetPc := ⟨State.reset_wf, by decide, rfl, by decide⟩

end Sys2Proof.Tests
end

/-! PROOFS. Scope: the extension primitives (R12, R13) and the flag updater (R16, R27). -/

namespace Sys2Proof.Machine

/-- Sign extension as arithmetic (R12), for every width that fits in a word. -/
theorem toNat_sext {n : Nat} (hn : n ≤ 16) (v : BitVec n) :
    (sext v).toNat = if v.getLsbD (n - 1) then v.toNat + (0x10000 - 2 ^ n) else v.toNat := by
  have hfits : v.toNat % 2 ^ 16 = v.toNat :=
    Nat.mod_eq_of_lt (v.isLt.trans_le (Nat.pow_le_pow_right two_pos hn))
  rw [sext, BitVec.toNat_signExtend, BitVec.toNat_setWidth, hfits, BitVec.msb_eq_getLsbD_last]
  cases v.getLsbD (n - 1) <;> rfl

/-- Zero extension of a byte is the byte under eight zero bits (R13). -/
theorem zext8_eq_append (v : BitVec 8) : zext8 v = 0x00#8 ++ v :=
  BitVec.setWidth_eq_append (by decide)

/-- `setcc` keeps PSR[15:3] (R27). -/
theorem State.psr_high_setcc (s : State) (v : Word) :
    (s.setcc v).psr.extractLsb' 3 13 = s.psr.extractLsb' 3 13 :=
  BitVec.extractLsb'_append_eq_left

/-- A value whose bit 15 is set gets N (R27). -/
theorem flagsOf_of_negative {v : Word} (hneg : v.getLsbD 15 = true) : flagsOf v = 0b100#3 := by
  rcases flagsOf_cases v with ⟨rfl, -⟩ | ⟨-, -, hflag⟩ | ⟨-, hpos, -⟩
  · exact absurd hneg (by decide)
  · exact hflag
  · exact absurd (hpos.symm.trans hneg) Bool.false_ne_true

/-- A nonzero value whose bit 15 is clear gets P (R27). -/
theorem flagsOf_of_positive {v : Word} (hnonzero : v ≠ 0x0000#16) (hpos : v.getLsbD 15 = false) :
    flagsOf v = 0b001#3 := by
  rcases flagsOf_cases v with ⟨hzero, -⟩ | ⟨-, hneg, -⟩ | ⟨-, -, hflag⟩
  · exact absurd hzero hnonzero
  · exact absurd (hpos.symm.trans hneg) Bool.false_ne_true
  · exact hflag

/-- Settles O1: the four sign extensions are instances of `toNat_sext`, and the two halves of a
zero-extended byte are those of `zext8_eq_append`. -/
theorem extensionsMatchTheirRules : Obligations.ExtensionsMatchTheirRules := by
  refine ⟨toNat_sext (by decide), toNat_sext (by decide), toNat_sext (by decide),
    toNat_sext (by decide), fun v => ?_⟩
  rw [zext8_eq_append]
  exact ⟨BitVec.extractLsb'_append_eq_right, BitVec.extractLsb'_append_eq_left⟩

/-- Settles O3: PSR[2:0] after `setcc` is `flagsOf v`, which classifies `v`; `setcc` writes no field
but PSR. -/
theorem setccClassifiesItsValue : Obligations.SetccClassifiesItsValue := by
  intro s v
  have hflags : (s.setcc v).psr.extractLsb' 0 3 = flagsOf v := s.flags_setcc v
  rw [hflags]
  refine ⟨?zero, flagsOf_of_negative, flagsOf_of_positive, s.psr_high_setcc v, ?regs, rfl,
    ?mem, ?rest⟩
  case zero => rintro rfl; rfl
  case regs => exact fun r _ => s.readReg_setcc v r
  case mem => exact fun _ => rfl
  case rest => exact ⟨rfl, rfl, rfl, rfl, rfl, rfl⟩

end Sys2Proof.Machine

/-! PROOFS. Scope: the machine's invariant and what a step can do to each piece of state (R22, R24, R26,
R28 to R30, R32, R34, R151 to R157, R165). -/

namespace Sys2Proof

/-! ### Memory and the decoder -/

/-- A memory with no listed cell reads as zero (R34). -/
theorem Memory.read_nil (a : Word) : Memory.read [] a = 0x0000#16 := by
  rw [Memory.read, Memory.readByte_nil, Memory.readByte_nil]
  rfl

/-- The bits of the opcode of a decoded word (R61). -/
theorem code_of_decode {w : Word} {i : Instr} (h : decode w = i) :
    w.extractLsb' 12 4 = i.opcode.code := by
  rw [← h, code_opcode_decode]

/-- The vector of a decoded TRAP is the low byte of the word (R71). -/
theorem vector_of_decode {w : Word} {v : BitVec 8} (h : decode w = .trap v) :
    w.extractLsb' 0 8 = v := by
  have hop : opcodeOf w = .trap := by rw [← opcode_decode, h]; rfl
  rw [decode, hop] at h
  exact Instr.trap.inj h

/-- The general register an opcode may write, by R22's table; `dr` is the register in bits 11:9. -/
def Opcode.written (o : Opcode) (dr : Reg) : List Reg :=
  match o with
  | .add | .and | .not | .ld | .ldi | .lea | .ldr => [dr]
  | .jsr => [.r7]
  | .trap => [.r0]
  | .st | .sti | .str | .br | .jmp | .rti | .res => []

/-- The general register an instruction may write (R22). -/
def Instr.written : Instr → List Reg
  | .addReg dr _ _ | .addImm dr _ _ | .andReg dr _ _ | .andImm dr _ _ | .not dr _ => [dr]
  | .ld dr _ | .ldi dr _ | .lea dr _ | .ldr dr _ _ => [dr]
  | .jsr _ | .jsrr _ => [.r7]
  | .trap _ => [.r0]
  | .st _ _ | .sti _ _ | .str _ _ _ | .br _ _ _ _ | .jmp _ | .rti | .res => []

/-- An instruction may write the register that R22's table gives for its word. -/
theorem written_decode (w : Word) :
    (decode w).written = (opcodeOf w).written (regField w 9) := by
  unfold decode
  cases opcodeOf w <;> simp only <;> (try split) <;> rfl

namespace Machine

/-- `setcc` leaves exactly one flag set (R30). -/
theorem State.oneFlag_setcc (s : State) (v : Word) : (s.setcc v).OneFlag := by
  rw [State.OneFlag, State.flags_setcc]
  obtain ⟨-, e⟩ | ⟨-, -, e⟩ | ⟨-, -, e⟩ := flagsOf_cases v
  · exact .inr (.inl e)
  · exact .inl e
  · exact .inr (.inr e)

/-! ### What an instruction can do, one piece of state at a time -/

section
variable {i : Instr} {s t : State}

/-- No instruction writes the parameters (R9). -/
theorem Effect.cfg_eq (h : Effect i s t) : t.cfg = s.cfg := by
  cases h <;> rfl

/-- An instruction writes no general register but the one R22's table gives. -/
theorem Effect.sameRegsBut (h : Effect i s t) : SameRegsBut i.written s t := by
  cases h
  case addReg | addImm | andReg | andImm | not | ld | ldi | ldr | lea | jsr | jsrr | trapWriteR0 =>
    exact s.sameRegsBut_writeReg _ _
  all_goals exact fun _ _ => rfl

/-- PC is written by BR, JMP, JSR and JSRR only (R24). -/
theorem Effect.pc_cases (h : Effect i s t) : t.pc = s.pc ∨ i.opcode ∈ [Opcode.br, .jmp, .jsr] := by
  cases h
  case brTaken | jmp | jsr | jsrr => exact .inr (by simp [Instr.opcode])
  all_goals exact .inl rfl

/-- PSR is written by the six flag-setting opcodes only, and by `setcc` (R28). -/
theorem Effect.psr_cases (h : Effect i s t) :
    t.psr = s.psr ∨
      i.opcode ∈ [Opcode.add, .and, .not, .ld, .ldi, .ldr] ∧ ∃ v, t.psr = (s.setcc v).psr := by
  cases h
  case addReg | addImm | andReg | andImm | not | ld | ldi | ldr =>
    exact .inr ⟨by simp [Instr.opcode], _, rfl⟩
  all_goals exact .inl rfl

/-- Memory is written by the three stores only, one word at an address the engine may access (R46, R48). -/
theorem Effect.mem_cases (h : Effect i s t) :
    t.mem = s.mem ∨
      i.opcode ∈ [Opcode.st, .sti, .str] ∧ ∃ a v, s.MayAccess a ∧ t.mem = s.mem.write a v := by
  cases h
  case st hm | str hm | sti _ hm => exact .inr ⟨by simp [Instr.opcode], _, _, hm, rfl⟩
  all_goals exact .inl rfl

/-- An instruction issues at most one request, and only one for a service vector (R6, R142). -/
theorem Effect.services_cases (h : Effect i s t) :
    t.services = s.services ∨
      ∃ q : ServiceRequest, (0x20 ≤ q.vect.toNat ∧ q.vect.toNat ≤ 0x24) ∧
        t.services = q :: s.services := by
  cases h
  case trapNoWrite v hlo hhi | trapWriteR0 v _ hlo hhi =>
    have hz : (zext8 v).toNat = v.toNat := BitVec.toNat_setWidth_of_le (by decide)
    exact .inr ⟨_, ⟨hz ▸ hlo, hz ▸ hhi⟩, rfl⟩
  all_goals exact .inl rfl

/-- `Raises s i cause info`: executing `i` in `s` may enter the fault `cause(info)` (R152 to R155). -/
inductive Raises (s : State) : Instr → FaultCause → Word → Prop where
  | reserved : Raises s .res .illegalOpcode s.ir
  | rtiPrivileged (h : s.userMode = false) : Raises s .rti .illegalOpcode s.ir
  | rtiUser (h : s.userMode = true) : Raises s .rti .privilegeViolation s.ir
  | access {i : Instr} {a : Word} (h : ¬ s.MayAccess a) : Raises s i .accessViolation a
  | trapVector {v : BitVec 8} (h : v.toNat < 0x20 ∨ 0x25 < v.toNat) :
      Raises s (.trap v) .illegalTrapVector s.ir

/-- Everything an instruction can do to the run state: nothing, HALT, or a fault entry (R141, R150). -/
theorem Effect.runState_cases (h : Effect i s t) :
    (t.status = s.status ∧ t.faultCause = s.faultCause ∧ t.faultInfo = s.faultInfo) ∨
      (i = .trap 0x25#8 ∧ t = s.setStatus .halted) ∨
      ∃ cause info, Raises s i cause info ∧ t = s.raise cause info := by
  cases h
  case trapHalt hv => exact .inr (.inl ⟨congrArg Instr.trap hv, rfl⟩)
  case res => exact .inr (.inr ⟨_, _, .reserved, rfl⟩)
  case rtiPrivileged hu => exact .inr (.inr ⟨_, _, .rtiPrivileged hu, rfl⟩)
  case rtiUser hu => exact .inr (.inr ⟨_, _, .rtiUser hu, rfl⟩)
  case trapOther hv => exact .inr (.inr ⟨_, _, .trapVector hv, rfl⟩)
  case ldRefused hm | ldrRefused hm | ldiPointerRefused hm | ldiRefused _ hm | stRefused hm
      | strRefused hm | stiPointerRefused hm | stiRefused _ hm =>
    exact .inr (.inr ⟨_, _, .access hm, rfl⟩)
  all_goals exact .inl ⟨rfl, rfl, rfl⟩

/-- The causes R151 says are raised. -/
theorem Raises.cause_mem {cause : FaultCause} {info : Word} (h : Raises s i cause info) :
    cause ∈ [FaultCause.illegalOpcode, .accessViolation, .privilegeViolation, .illegalTrapVector] := by
  cases h <;> decide

/-- No instruction writes a bit of PSR[15:3] (R28). -/
theorem Effect.psr_bit_eq (h : Effect i s t) {k : Nat} (hk : 3 ≤ k) :
    t.psr.getLsbD k = s.psr.getLsbD k := by
  obtain e | ⟨-, v, e⟩ := h.psr_cases
  · rw [e]
  · rw [e, State.setcc_psr_bit, if_neg (by omega)]

/-- No instruction writes a field of PSR[15:3] (R28). -/
theorem Effect.psr_field_eq (h : Effect i s t) {k n : Nat} (hk : 3 ≤ k) :
    t.psr.extractLsb' k n = s.psr.extractLsb' k n := by
  apply BitVec.eq_of_getLsbD_eq
  intro j _
  rw [BitVec.getLsbD_extractLsb', BitVec.getLsbD_extractLsb', h.psr_bit_eq (by omega)]

/-- An instruction keeps the canonical form of memory. -/
theorem Effect.mem_wf (h : Effect i s t) (hs : s.mem.wf) : t.mem.wf := by
  obtain e | ⟨-, a, v, -, e⟩ := h.mem_cases
  · rwa [e]
  · rw [e]; exact Memory.wf_write hs a v

/-- An instruction keeps exactly one flag set (R30). -/
theorem Effect.oneFlag (h : Effect i s t) (hs : s.OneFlag) : t.OneFlag := by
  obtain e | ⟨-, v, e⟩ := h.psr_cases
  · rwa [State.OneFlag, State.flags, e]
  · rw [State.OneFlag, State.flags, e]
    exact s.oneFlag_setcc v

/-- An instruction requests service vectors only (R6). -/
theorem Effect.services_inRange (h : Effect i s t)
    (hs : ∀ q ∈ s.services, 0x20 ≤ q.vect.toNat ∧ q.vect.toNat ≤ 0x24) :
    ∀ q ∈ t.services, 0x20 ≤ q.vect.toNat ∧ q.vect.toNat ≤ 0x24 := by
  obtain e | ⟨q, hq, e⟩ := h.services_cases
  · rwa [e]
  · rw [e]; exact List.forall_mem_cons.2 ⟨hq, hs⟩

end

/-! ### What a step can do -/

/-- The state the fetch leaves when it latches a word and goes on (R184). -/
abbrev State.latched (s : State) : State := (s.setIr (s.mem.read s.pc)).setPc (s.pc + 1)

/-- The inversion of `step`: a stopped core, a refused fetch, the end of memory, or an effect of the
decoded instruction on the latched state (R184, R191). -/
theorem step_next_cases {s t : State} (h : step s = .next t) :
    (s.status ≠ .running ∧ t = s) ∨
      (s.status = .running ∧ ¬ s.MayAccess s.pc ∧ t = s.raise .accessViolation s.pc) ∨
      (s.status = .running ∧ s.MayAccess s.pc ∧ s.pc = 0xFFFF#16 ∧
        t = (s.setIr (s.mem.read s.pc)).setStatus .ended) ∨
      (s.status = .running ∧ s.MayAccess s.pc ∧ s.pc ≠ 0xFFFF#16 ∧
        Effect (decode (s.mem.read s.pc)) s.latched t) := by
  obtain ⟨hs, e⟩ | ⟨hs, hm, e⟩ | ⟨hs, hm, hp, e⟩ | ⟨hs, hm, hp, e⟩ := step_cases s <;> rw [e] at h
  · exact .inl ⟨hs, (Host.Outcome.next.inj h).symm⟩
  · exact .inr (.inl ⟨hs, hm, (Host.Outcome.next.inj h).symm⟩)
  · exact .inr (.inr (.inl ⟨hs, hm, hp, (Host.Outcome.next.inj h).symm⟩))
  · exact .inr (.inr (.inr ⟨hs, hm, hp, effect_of_exec h⟩))

/-- No step writes the parameters (R9). -/
theorem cfg_of_step {s t : State} (h : step s = .next t) : t.cfg = s.cfg := by
  obtain ⟨-, rfl⟩ | ⟨-, -, rfl⟩ | ⟨-, -, -, rfl⟩ | ⟨-, -, -, heff⟩ := step_next_cases h
  · rfl
  · rfl
  · rfl
  · exact heff.cfg_eq

/-- No step writes a bit of PSR[15:3] (R28, R29). -/
theorem psr_bit_of_step {s t : State} (h : step s = .next t) {k : Nat} (hk : 3 ≤ k) :
    t.psr.getLsbD k = s.psr.getLsbD k := by
  obtain ⟨-, rfl⟩ | ⟨-, -, rfl⟩ | ⟨-, -, -, rfl⟩ | ⟨-, -, -, heff⟩ := step_next_cases h
  · rfl
  · rfl
  · rfl
  · exact heff.psr_bit_eq hk

/-! ### The invariant -/

/-- The address of a refused access lies in privileged memory, and the mode is user mode (R44). -/
theorem State.not_mayAccess_iff {s : State} {a : Word} :
    ¬ s.MayAccess a ↔ s.userMode = true ∧ a.toNat < s.cfg.privBoundary.toNat := by
  rw [State.MayAccess, not_or, Bool.not_eq_false, not_le, State.userMode]

/-- What the invariant asks of a running core's fault registers (R32). -/
theorem State.runStateAgrees_of_running {s : State} (hs : s.status = .running) :
    s.RunStateAgrees ↔ s.faultCause = .none ∧ s.faultInfo = 0x0000#16 := by
  rw [State.RunStateAgrees, hs]

/-- A core that keeps running with its fault registers unwritten keeps a run state that agrees. -/
theorem State.RunStateAgrees.of_running {s t : State} (hs : s.RunStateAgrees)
    (hrunning : s.status = .running) (hstatus : t.status = s.status)
    (hcause : t.faultCause = s.faultCause) (hinfo : t.faultInfo = s.faultInfo) :
    t.RunStateAgrees := by
  rw [State.runStateAgrees_of_running hrunning] at hs
  rwa [State.runStateAgrees_of_running (hstatus.trans hrunning), hcause, hinfo]

/-- A refused access leaves a run state that agrees (R153). -/
theorem State.runStateAgrees_raise_accessViolation {s : State} {a : Word} (h : ¬ s.MayAccess a) :
    (s.raise .accessViolation a).RunStateAgrees :=
  .inr (.inl ⟨rfl, State.not_mayAccess_iff.1 h⟩)

/-- The invariant has exactly one flag set (R30). -/
theorem State.Inv.oneFlag {s : State} (hs : s.Inv) : s.OneFlag := by
  obtain ⟨-, hflag, -⟩ := hs
  exact hflag

/-- The invariant has a run state that agrees (R32). -/
theorem State.Inv.runStateAgrees {s : State} (hs : s.Inv) : s.RunStateAgrees := by
  obtain ⟨-, -, -, -, hrun, -⟩ := hs
  exact hrun

/-- The invariant speaks of memory, PSR, the requests, the parameters and the run state only. -/
theorem State.Inv.of_runStateAgrees {s t : State} (hs : s.Inv) (hmem : t.mem = s.mem)
    (hpsr : t.psr = s.psr) (hservices : t.services = s.services) (hcfg : t.cfg = s.cfg)
    (hrun : t.RunStateAgrees) : t.Inv := by
  obtain ⟨hwf, hflag, hzero, hmode, -, hreq⟩ := hs
  refine ⟨hmem ▸ hwf, ?_, hpsr ▸ hzero, ?_, hrun, hservices ▸ hreq⟩
  · rwa [State.OneFlag, State.flags, hpsr]
  · rwa [hpsr, hcfg]

/-- HALT on the latched word leaves a run state that agrees (R141). -/
theorem State.runStateAgrees_halt {s : State} (hdec : decode s.ir = .trap 0x25#8)
    (hfault : s.faultCause = .none ∧ s.faultInfo = 0x0000#16) :
    (s.setStatus .halted).RunStateAgrees :=
  ⟨hfault.1, hfault.2, code_of_decode hdec, vector_of_decode hdec⟩

/-- A fault of the latched word's instruction leaves a run state that agrees (R152 to R155). -/
theorem Raises.runStateAgrees {s : State} {i : Instr} {cause : FaultCause} {info : Word}
    (h : Raises s i cause info) (hdec : decode s.ir = i) : (s.raise cause info).RunStateAgrees := by
  cases h with
  | reserved => exact .inl ⟨rfl, rfl, .inl (code_of_decode hdec)⟩
  | rtiPrivileged hu => exact .inl ⟨rfl, rfl, .inr ⟨code_of_decode hdec, hu⟩⟩
  | rtiUser hu => exact .inr (.inr (.inl ⟨rfl, rfl, hu, code_of_decode hdec⟩))
  | access hm => exact State.runStateAgrees_raise_accessViolation hm
  | trapVector hv =>
    exact .inr (.inr (.inr ⟨rfl, rfl, code_of_decode hdec, by rwa [← vector_of_decode hdec] at hv⟩))

/-- The instruction in IR takes a running core to a run state that agrees. -/
theorem Effect.runStateAgrees {w : Word} {s t : State} (h : Effect (decode w) s t) (hir : s.ir = w)
    (hrunning : s.status = .running) (hs : s.RunStateAgrees) : t.RunStateAgrees := by
  subst hir
  obtain ⟨hstatus, hcause, hinfo⟩ | ⟨hdec, rfl⟩ | ⟨cause, info, hraise, rfl⟩ := h.runState_cases
  · exact hs.of_running hrunning hstatus hcause hinfo
  · exact State.runStateAgrees_halt hdec ((State.runStateAgrees_of_running hrunning).1 hs)
  · exact hraise.runStateAgrees rfl

/-- The instruction in IR keeps the invariant of a running core. -/
theorem Effect.inv {w : Word} {s t : State} (h : Effect (decode w) s t) (hir : s.ir = w)
    (hrunning : s.status = .running) (hs : s.Inv) : t.Inv := by
  obtain ⟨hwf, hflag, hzero, hmode, hrun, hreq⟩ := hs
  refine ⟨h.mem_wf hwf, h.oneFlag hflag, ?zero, ?mode, h.runStateAgrees hir hrunning hrun,
    h.services_inRange hreq⟩
  case zero => rwa [h.psr_field_eq (by decide)]
  case mode => rwa [h.psr_field_eq (by decide), h.cfg_eq]

/-- Settles O41: by the cases of a step.  A refused fetch, the end of memory and the latching of a word
touch PC, IR and the run state only; the decoded instruction then keeps the invariant. -/
theorem invariantKeptByEveryStep : Obligations.InvariantKeptByEveryStep := by
  intro s t hs h
  have hrun := hs.runStateAgrees
  obtain ⟨-, rfl⟩ | ⟨-, hm, rfl⟩ | ⟨hrunning, -, hp, rfl⟩ | ⟨hrunning, -, -, heff⟩ :=
    step_next_cases h
  case inl => exact hs
  case inr.inl =>
    exact hs.of_runStateAgrees rfl rfl rfl rfl (State.runStateAgrees_raise_accessViolation hm)
  case inr.inr.inl =>
    obtain ⟨hcause, hinfo⟩ := (State.runStateAgrees_of_running hrunning).1 hrun
    exact hs.of_runStateAgrees rfl rfl rfl rfl ⟨hcause, hinfo, hp, congrArg s.mem.read hp⟩
  case inr.inr.inr =>
    have hlatched : s.latched.RunStateAgrees := hrun.of_running hrunning rfl rfl rfl
    exact heff.inv rfl hrunning (hs.of_runStateAgrees rfl rfl rfl rfl hlatched)

/-- Settles O44: the mode is PSR[15], which no step writes. -/
theorem modeNeverChanges : Obligations.ModeNeverChanges :=
  fun _ _ h => ⟨psr_bit_of_step h (by decide), cfg_of_step h⟩

/-! ### Reset and the reachable states -/

/-- PSR at reset, for each mode (R34, decision D5). -/
theorem State.psr_resetWith (cfg : Config) :
    (cfg.resetPriv = 1#1 → (State.resetWith cfg).psr = 0x8002#16) ∧
      (cfg.resetPriv = 0#1 → (State.resetWith cfg).psr = 0x0002#16) := by
  constructor <;> intro h <;> rw [State.resetWith, h] <;> rfl

/-- The fields of PSR at reset: Z alone is set, PSR[14:3] is zero, the mode is `RESET_PRIV` (R34). -/
theorem State.psr_fields_resetWith (cfg : Config) :
    (State.resetWith cfg).psr.extractLsb' 0 3 = 0b010#3 ∧
      (State.resetWith cfg).psr.extractLsb' 3 12 = 0#12 ∧
      (State.resetWith cfg).psr.extractLsb' 15 1 = cfg.resetPriv := by
  obtain ⟨huser, hpriv⟩ := State.psr_resetWith cfg
  obtain h | h := BitVec.eq_zero_or_eq_one cfg.resetPriv
  · rw [hpriv h, h]; decide
  · rw [huser h, h]; decide

/-- The core is in user mode after reset exactly when `RESET_PRIV` is 1 (R34). -/
theorem State.userMode_resetWith (cfg : Config) :
    (State.resetWith cfg).userMode = true ↔ cfg.resetPriv = 1#1 := by
  obtain ⟨huser, hpriv⟩ := State.psr_resetWith cfg
  obtain h | h := BitVec.eq_zero_or_eq_one cfg.resetPriv
  · rw [State.userMode, hpriv h, h]; decide
  · rw [State.userMode, huser h, h]; decide

/-- Settles O4: PSR is `psr_resetWith`; every other piece of state is a literal of `resetWith`. -/
theorem resetLeavesTheRuledValues : Obligations.ResetLeavesTheRuledValues := by
  intro cfg
  obtain ⟨huser, hpriv⟩ := State.psr_resetWith cfg
  refine ⟨?regs, rfl, rfl, huser, hpriv, State.userMode_resetWith cfg, ?mem, rfl, rfl, rfl⟩
  case regs => intro r; cases r <;> rfl
  case mem => exact Memory.read_nil

/-- Settles O40: Z is the one flag set, PSR is laid out as `RESET_PRIV`, zeros and flags, the core runs
without a fault, and nothing has been requested. -/
theorem invariantAtReset : Obligations.InvariantAtReset := by
  intro cfg
  obtain ⟨hflags, hzero, hmode⟩ := State.psr_fields_resetWith cfg
  exact ⟨State.resetWith_wf cfg, .inr (.inl hflags), hzero, hmode, ⟨rfl, rfl⟩, List.forall_mem_nil _⟩

/-- A host load keeps the invariant of a running core (R5, R47). -/
theorem State.Inv.hostLoad {s : State} (hs : s.Inv) (hrunning : s.status = .running) (a w : Word) :
    (s.hostLoad a w).Inv := by
  obtain ⟨hwf, hflag, hzero, hmode, hrun, hreq⟩ := hs
  exact ⟨Memory.wf_write hwf a w, hflag, hzero, hmode, hrun.of_running hrunning rfl rfl rfl, hreq⟩

/-- Before the first step the core runs, meets the invariant and has the parameters of its reset. -/
theorem Loaded.running_inv_cfg {cfg : Config} {s : State} (h : Loaded cfg s) :
    s.status = .running ∧ s.Inv ∧ s.cfg = cfg := by
  induction h with
  | reset => exact ⟨rfl, invariantAtReset cfg, rfl⟩
  | load a w _ ih =>
    obtain ⟨hrunning, hinv, hcfg⟩ := ih
    exact ⟨hrunning, hinv.hostLoad hrunning a w, hcfg⟩

/-- Every reachable state meets the invariant and has the parameters of its reset. -/
theorem Reachable.inv_cfg {cfg : Config} {s : State} (h : Reachable cfg s) :
    s.Inv ∧ s.cfg = cfg := by
  induction h with
  | loaded hl => exact hl.running_inv_cfg.2
  | step _ hstep ih =>
    obtain ⟨hinv, hcfg⟩ := ih
    exact ⟨invariantKeptByEveryStep _ _ hinv hstep, (cfg_of_step hstep).trans hcfg⟩

/-- Settles O42: by induction over loads and steps; the one-flag claim is part of the invariant. -/
theorem reachableStatesMeetTheInvariant : Obligations.ReachableStatesMeetTheInvariant := by
  intro cfg s h
  obtain ⟨hinv, hcfg⟩ := h.inv_cfg
  exact ⟨hinv, hinv.oneFlag, hcfg⟩

/-! ### Which opcode writes what, and how a run ends -/

/-- Settles O43: PSR[15:3] is never written, and an opcode that writes PSR is one of the six. -/
theorem onlySixOpcodesWriteFlags : Obligations.OnlySixOpcodesWriteFlags := by
  intro w s t h
  have heff := effect_of_exec h
  refine ⟨heff.psr_field_eq (by decide), fun hne => ?_⟩
  obtain e | ⟨hop, -⟩ := heff.psr_cases
  · exact absurd e hne
  · rw [← code_opcode_decode]
    exact List.mem_map_of_mem (f := Opcode.code) hop

/-- Settles O45: what an instruction may write is R22's table read at the word's opcode. -/
theorem registerWritersTable : Obligations.RegisterWritersTable := by
  intro w s t h
  have hregs : SameRegsBut ((Opcode.ofCode (w.extractLsb' 12 4)).written (regField w 9)) s t :=
    written_decode w ▸ (effect_of_exec h).sameRegsBut
  generalize w.extractLsb' 12 4 = code at hregs ⊢
  refine ⟨fun hcode => ?dr, ?jsr, ?trap, fun hcode => ?none⟩
  case jsr => rintro rfl; exact hregs
  case trap => rintro rfl; exact hregs
  all_goals
    simp only [List.mem_cons, List.not_mem_nil, or_false] at hcode
    obtain rfl | rfl | rfl | rfl | rfl | rfl | rfl := hcode <;> exact hregs

/-- Settles O47: the step is an effect on the latched state, whose PC is the incremented one. -/
theorem onlyTransfersMovePc : Obligations.OnlyTransfersMovePc := by
  intro s t hrunning hmay hpc h hcode
  obtain ⟨hs, -⟩ | ⟨-, hm, -⟩ | ⟨-, -, hp, -⟩ | ⟨-, -, -, heff⟩ := step_next_cases h
  · exact absurd hrunning hs
  · exact absurd hmay hm
  · exact absurd hp hpc
  · refine heff.pc_cases.resolve_right fun hop => hcode ?_
    rw [← code_opcode_decode]
    exact List.mem_map_of_mem (f := Opcode.code) hop

/-- Settles O48: a refused fetch faults and the end of memory ends the run; the decoded instruction halts
only as TRAP x25, faults only with a cause it raises, and otherwise leaves the run state alone. -/
theorem howARunEnds : Obligations.HowARunEnds := by
  intro s t hrunning h
  obtain ⟨hs, -⟩ | ⟨-, hm, rfl⟩ | ⟨-, -, hp, rfl⟩ | ⟨-, -, -, heff⟩ := step_next_cases h
  · exact absurd hrunning hs
  · simp
  · simp [hp]
  · obtain ⟨hstatus, hcause, hinfo⟩ | ⟨hdec, rfl⟩ | ⟨cause, info, hraise, rfl⟩ :=
      heff.runState_cases
    · have hgo : t.status = .running := hstatus.trans hrunning
      simp [hgo, hcause, hinfo]
    · simp [hdec]
    · simpa using hraise.cause_mem

end Machine
end Sys2Proof

/-! PROOFS. Scope: memory and the privilege check: address sums, the two access primitives, who writes
memory, isolation of privileged memory, stores that are fetched, and the byte order of an object file (R42,
R44 to R48, R50, R54, R85, R110, R153, R164, R189). -/

namespace Sys2Proof

/-- A word is read back from its two bytes, the lower one first (R42). -/
theorem wordOfBytes_extractLsb' (w : Word) :
    wordOfBytes (w.extractLsb' 0 8) (w.extractLsb' 8 8) = w :=
  BitVec.extractLsb'_append_extractLsb'

/-- Settles O55: by induction over the words, one pair of bytes at a time. -/
theorem objectFileIsLittleEndian : Obligations.ObjectFileIsLittleEndian := by
  intro ws
  induction ws with
  | nil => rfl
  | cons w ws ih =>
    simp only [List.flatMap_cons, List.cons_append, List.nil_append, Machine.imageOfBytes, ih,
      Option.map_some, wordOfBytes_extractLsb']

namespace Machine

/-! ### Address sums -/

/-- A word plus a sign-extended field, as integers (R50, R74). -/
theorem toNat_add_sext {n : Nat} (a : Word) (off : BitVec n) :
    ((a + sext off).toNat : Int) = ((a.toNat : Int) + off.toInt) % 65536 := by
  have hsum : a + sext off = BitVec.ofInt 16 (a.toNat + off.toInt) := by
    rw [BitVec.ofInt_add, BitVec.ofInt_natCast, BitVec.ofNat_toNat, BitVec.setWidth_eq]
    rfl
  rw [hsum, BitVec.toNat_ofInt]
  exact Int.toNat_of_nonneg (Int.emod_nonneg _ (by decide))

/-- Settles O2: both address forms are a word plus a sign-extended field. -/
theorem addressSumsWrap : Obligations.AddressSumsWrap :=
  ⟨fun s => toNat_add_sext s.pc, fun s => toNat_add_sext s.pc,
    fun s baseR => toNat_add_sext (s.readReg baseR)⟩

/-! ### The two access primitives -/

/-- A refused access, in the mode bit and the boundary (R44). -/
theorem State.not_mayAccess_of_privileged {s : State} {a : Word} (huser : s.psr.getLsbD 15 = true)
    (ha : a.toNat < s.cfg.privBoundary.toNat) : ¬ s.MayAccess a :=
  State.not_mayAccess_iff.2 ⟨huser, ha⟩

/-- An allowed access, in the mode bit and the boundary (R44). -/
theorem State.mayAccess_of_not_privileged {s : State} {a : Word}
    (h : ¬ (s.psr.getLsbD 15 = true ∧ a.toNat < s.cfg.privBoundary.toNat)) : s.MayAccess a :=
  not_not.1 (mt State.not_mayAccess_iff.1 h)

/-- In user mode an address that may be accessed lies at or above the boundary (R44). -/
theorem State.MayAccess.boundary_le {s : State} {a : Word} (h : s.MayAccess a)
    (huser : s.psr.getLsbD 15 = true) : s.cfg.privBoundary.toNat ≤ a.toNat :=
  h.resolve_left (by simp [huser])

/-- A checked write that is allowed writes the word (R46). -/
theorem State.memWrite_of_mayAccess {s : State} {a : Word} (h : s.MayAccess a) (v : Word) :
    s.memWrite a v = s.setMem a v := by
  obtain ⟨-, e⟩ | ⟨hm, -⟩ := s.memWrite_cases a v
  · exact e
  · exact absurd h hm

/-- A checked write that is refused raises and writes nothing (R46). -/
theorem State.memWrite_of_not_mayAccess {s : State} {a : Word} (h : ¬ s.MayAccess a) (v : Word) :
    s.memWrite a v = s.raise .accessViolation a := by
  obtain ⟨hm, -⟩ | ⟨-, e⟩ := s.memWrite_cases a v
  · exact absurd hm h
  · exact e

/-- Writing a word changes no byte outside it (R46). -/
theorem State.sameMemBut_setMem {s : State} (hwf : s.mem.wf) (a v : Word) :
    SameMemBut a s (s.setMem a v) := by
  intro k hlo hhi
  rw [State.setMem_mem, Memory.readByte_write hwf, if_neg hhi, if_neg hlo]

/-- Settles O5: the check decides between the fault entry and what follows the read. -/
theorem memReadChecksPrivilege : Obligations.MemReadChecksPrivilege := by
  intro s a rest
  refine ⟨fun huser ha => ?refused, fun hallowed => ?allowed⟩
  case refused =>
    rw [State.withMemRead_of_not_mayAccess (State.not_mayAccess_of_privileged huser ha)]
    exact s.faultEntered_raise _ _
  case allowed =>
    exact State.withMemRead_of_mayAccess (State.mayAccess_of_not_privileged hallowed) rest

/-- Settles O6: the check decides between the fault entry and the write of one word. -/
theorem memWriteChecksPrivilege : Obligations.MemWriteChecksPrivilege := by
  intro s a v hwf
  refine ⟨fun huser ha => ?refused, fun hallowed => ?allowed⟩
  case refused =>
    rw [State.memWrite_of_not_mayAccess (State.not_mayAccess_of_privileged huser ha)]
    exact s.faultEntered_raise _ _
  case allowed =>
    rw [State.memWrite_of_mayAccess (State.mayAccess_of_not_privileged hallowed)]
    exact ⟨Memory.read_write_same hwf a v, State.sameMemBut_setMem hwf a v,
      fun _ _ => rfl, rfl, rfl, rfl, rfl, rfl, rfl, rfl, rfl⟩

/-! ### Who writes memory -/

/-- Settles O46: an instruction that changes memory has the opcode of one of the three stores. -/
theorem onlyStoresWriteMemory : Obligations.OnlyStoresWriteMemory := by
  intro w s t h hcode
  refine (effect_of_exec h).mem_cases.resolve_right fun ⟨hop, _⟩ => hcode ?_
  rw [← code_opcode_decode]
  exact List.mem_map_of_mem (f := Opcode.code) hop

/-- An instruction executed in user mode changes no privileged word (R44, R46). -/
theorem Effect.read_privileged {i : Instr} {s t : State} (h : Effect i s t) (hwf : s.mem.wf)
    (huser : s.psr.getLsbD 15 = true) {a : Word} (ha : a.toNat < s.cfg.privBoundary.toNat) :
    t.mem.read a = s.mem.read a := by
  obtain e | ⟨-, b, v, hm, e⟩ := h.mem_cases
  · rw [e]
  · have hne : a ≠ b := by
      rintro rfl
      exact State.not_mayAccess_of_privileged huser ha hm
    rw [e, Memory.read_write_other hwf hne]

/-- Settles O50: only the executed instruction can write memory, and it writes no privileged word. -/
theorem userModeCannotWritePrivilegedMemory :
    Obligations.UserModeCannotWritePrivilegedMemory := by
  intro s t a hwf huser h ha
  obtain ⟨-, rfl⟩ | ⟨-, -, rfl⟩ | ⟨-, -, -, rfl⟩ | ⟨-, -, -, heff⟩ := step_next_cases h
  · rfl
  · rfl
  · rfl
  · exact heff.read_privileged hwf huser ha

/-! ### Violations -/

/-- Without protection every address may be accessed (R44, R164). -/
theorem State.mayAccess_of_unprotected {s : State}
    (h : s.psr.getLsbD 15 = false ∨ s.cfg.privBoundary = 0x0000#16) (a : Word) : s.MayAccess a :=
  h.imp_right fun hzero => by simp [hzero]

/-- An instruction that raises `AccessViolation` names an address it may not access (R153). -/
theorem Raises.not_mayAccess {s : State} {i : Instr} {a : Word}
    (h : Raises s i .accessViolation a) : ¬ s.MayAccess a := by
  cases h with
  | access hm => exact hm

/-- A step of a running core raises `AccessViolation` only for an address that may not be accessed
(R153). -/
theorem not_mayAccess_of_step {s t : State} (hrunning : s.status = .running) (h : step s = .next t)
    (hfaulted : t.status = .faulted) (hcause : t.faultCause = .accessViolation) :
    ∃ a, ¬ s.MayAccess a := by
  obtain ⟨hs, -⟩ | ⟨-, hm, -⟩ | ⟨-, -, -, rfl⟩ | ⟨-, -, -, heff⟩ := step_next_cases h
  case inl => exact absurd hrunning hs
  case inr.inl => exact ⟨_, hm⟩
  case inr.inr.inl => simp at hfaulted
  case inr.inr.inr =>
    obtain ⟨hstatus, -, -⟩ | ⟨-, rfl⟩ | ⟨cause, info, hraise, rfl⟩ := heff.runState_cases
    · simp [hstatus, hrunning] at hfaulted
    · simp at hfaulted
    · obtain rfl : cause = .accessViolation := hcause
      exact ⟨info, hraise.not_mayAccess⟩

/-- Settles O52: a violation needs an address that may not be accessed. -/
theorem noViolationWithoutProtection : Obligations.NoViolationWithoutProtection := by
  intro s t hrunning hunprotected h hfaulted hcause
  obtain ⟨a, hm⟩ := not_mayAccess_of_step hrunning h hfaulted hcause
  exact hm (State.mayAccess_of_unprotected hunprotected a)

/-! ### The step, from what holds before it -/

section
variable {s : State}

/-- A core that is not running does nothing (R191). -/
theorem step_of_not_running (h : s.status ≠ .running) : step s = .next s := by
  obtain ⟨-, e⟩ | ⟨hs, -⟩ | ⟨hs, -⟩ | ⟨hs, -⟩ := step_cases s
  · exact e
  all_goals exact absurd hs h

/-- A refused fetch faults (R153, R184). -/
theorem step_of_refused_fetch (hrunning : s.status = .running) (h : ¬ s.MayAccess s.pc) :
    step s = .next (s.raise .accessViolation s.pc) := by
  obtain ⟨hs, -⟩ | ⟨-, -, e⟩ | ⟨-, hm, -⟩ | ⟨-, hm, -⟩ := step_cases s
  · exact absurd hrunning hs
  · exact e
  all_goals exact absurd hm h

/-- The fetch at 0xFFFF ends the run (R184). -/
theorem step_of_end_of_memory (hrunning : s.status = .running) (h : s.MayAccess s.pc)
    (hpc : s.pc = 0xFFFF#16) : step s = .next ((s.setIr (s.mem.read s.pc)).setStatus .ended) := by
  obtain ⟨hs, -⟩ | ⟨-, hm, -⟩ | ⟨-, -, -, e⟩ | ⟨-, -, hp, -⟩ := step_cases s
  · exact absurd hrunning hs
  · exact absurd h hm
  · exact e
  · exact absurd hpc hp

/-- Any other fetch leads to the decoded instruction on the latched state (R184). -/
theorem step_of_fetch (hrunning : s.status = .running) (h : s.MayAccess s.pc)
    (hpc : s.pc ≠ 0xFFFF#16) : step s = exec (decode (s.mem.read s.pc)) s.latched := by
  obtain ⟨hs, -⟩ | ⟨-, hm, -⟩ | ⟨-, -, hp, -⟩ | ⟨-, -, -, e⟩ := step_cases s
  · exact absurd hrunning hs
  · exact absurd h hm
  · exact absurd hp hpc
  · exact e

end

/-- Settles O53: the allowed store leaves `v` at `a`, and the fetch at `a` latches what is there. -/
theorem storedWordIsExecutedNext : Obligations.StoredWordIsExecutedNext := by
  intro s a v hwf hrunning hmay hpc
  have hread : (s.mem.write a v).read a = v := Memory.read_write_same hwf a v
  rw [State.memWrite_of_mayAccess hmay]
  refine ⟨((s.setMem a v).setPc a).latched, ?step, hread, rfl, hread,
    State.sameMemBut_setMem hwf a v, fun _ _ => rfl, rfl⟩
  case step =>
    have hstep := step_of_fetch (s := (s.setMem a v).setPc a) hrunning hmay hpc
    rwa [State.setPc_mem, State.setPc_pc, State.setMem_mem, hread] at hstep

/-! ### Two runs that differ in privileged memory only -/

/-- The state with another memory. -/
abbrev State.withMem (s : State) (m : Memory) : State := { s with mem := m }

/-- Every word at or above the boundary is the same in `m` (R44). -/
def State.SameUserWords (s : State) (m : Memory) : Prop :=
  ∀ a : Word, s.cfg.privBoundary.toNat ≤ a.toNat → m.read a = s.mem.read a

/-- The two states differ in memory at most, and there in privileged words at most (R44). -/
inductive AgreeForUser (s : State) : State → Prop where
  | intro (m : Memory) (h : s.SameUserWords m) : AgreeForUser s (s.withMem m)

/-- Two outcomes agree when the states they are known to hold do. -/
theorem agreeForUser_of_next {o o' : Host.Outcome State Fault Refusal} {u u' t t' : State}
    (hu : o = .next u) (hu' : o' = .next u') (h : AgreeForUser u u') (e : o = .next t)
    (e' : o' = .next t') : AgreeForUser t t' := by
  obtain rfl := Host.Outcome.next.inj (hu.symm.trans e)
  obtain rfl := Host.Outcome.next.inj (hu'.symm.trans e')
  exact h

section
variable {s : State} {m : Memory} (hmem : s.SameUserWords m)
include hmem

/-- A word that user mode may access is the same in both memories (R44). -/
theorem State.SameUserWords.read_eq (huser : s.psr.getLsbD 15 = true) {a : Word}
    (ha : s.MayAccess a) : m.read a = s.mem.read a :=
  hmem a (ha.boundary_le huser)

/-- The same store in both memories keeps every user word the same. -/
theorem State.SameUserWords.setMem (hwf : s.mem.wf) (hwf' : m.wf) (a v : Word) :
    (s.setMem a v).SameUserWords (m.write a v) := by
  intro b hb
  rw [State.setMem_mem]
  by_cases hab : b = a
  · rw [hab, Memory.read_write_same hwf, Memory.read_write_same hwf']
  · rw [Memory.read_write_other hwf hab, Memory.read_write_other hwf' hab]
    exact hmem b hb

/-- A checked read in user mode keeps the agreement when what follows does (R45). -/
theorem agreeForUser_withMemRead (huser : s.psr.getLsbD 15 = true) (a : Word)
    {rest rest' : Word → State} (hrest : ∀ v, AgreeForUser (rest v) (rest' v)) :
    AgreeForUser (s.withMemRead a rest) ((s.withMem m).withMemRead a rest') := by
  by_cases ha : s.MayAccess a
  · rw [State.withMemRead_of_mayAccess ha, State.withMemRead_of_mayAccess (s := s.withMem m) ha,
      hmem.read_eq huser ha]
    exact hrest _
  · rw [State.withMemRead_of_not_mayAccess ha,
      State.withMemRead_of_not_mayAccess (s := s.withMem m) ha]
    exact .intro m hmem

/-- A checked write keeps the agreement (R46). -/
theorem agreeForUser_memWrite (hwf : s.mem.wf) (hwf' : m.wf) (a v : Word) :
    AgreeForUser (s.memWrite a v) ((s.withMem m).memWrite a v) := by
  by_cases ha : s.MayAccess a
  · rw [State.memWrite_of_mayAccess ha, State.memWrite_of_mayAccess (s := s.withMem m) ha]
    exact .intro _ (hmem.setMem hwf hwf' a v)
  · rw [State.memWrite_of_not_mayAccess ha, State.memWrite_of_not_mayAccess (s := s.withMem m) ha]
    exact .intro m hmem

/-- A trap other than a service keeps the agreement (R141, R143). -/
theorem agreeForUser_execTrap {v8 : BitVec 8} (hservice : v8.toNat < 0x20 ∨ 0x24 < v8.toNat)
    {t t' : State} (e : execTrap v8 s = .next t) (e' : execTrap v8 (s.withMem m) = .next t') :
    AgreeForUser t t' := by
  obtain ⟨-, hv⟩ | ⟨⟨hlo, hhi⟩, -⟩ | ⟨-, hv⟩ := ofVector?_zext8 v8
  case inr.inl => omega
  all_goals
    simp only [execTrap, hv] at e e'
    obtain rfl := Host.Outcome.next.inj e
    obtain rfl := Host.Outcome.next.inj e'
    exact .intro m hmem

/-- An instruction executed in user mode, other than a service trap, keeps the agreement: it reads no
memory but through the check (R44 to R46). -/
theorem agreeForUser_exec (hwf : s.mem.wf) (hwf' : m.wf) (huser : s.psr.getLsbD 15 = true)
    {i : Instr} (hservice : ∀ v8, i = .trap v8 → v8.toNat < 0x20 ∨ 0x24 < v8.toNat)
    {t t' : State} (e : exec i s = .next t) (e' : exec i (s.withMem m) = .next t') :
    AgreeForUser t t' := by
  cases i
  case trap v8 => exact agreeForUser_execTrap hmem (hservice v8 rfl) e e'
  all_goals
    obtain rfl := Host.Outcome.next.inj e
    obtain rfl := Host.Outcome.next.inj e'
  case br n z p off9 =>
    have hcond : (s.withMem m).branchTaken n z p = s.branchTaken n z p := rfl
    rw [hcond]
    split_ifs
    · exact .intro m hmem
    · exact .intro m hmem
  case ld | ldr => exact agreeForUser_withMemRead hmem huser _ fun _ => .intro m hmem
  case ldi =>
    exact agreeForUser_withMemRead hmem huser _ fun _ =>
      agreeForUser_withMemRead hmem huser _ fun _ => .intro m hmem
  case st | str => exact agreeForUser_memWrite hmem hwf hwf' _ _
  case sti =>
    exact agreeForUser_withMemRead hmem huser _ fun _ => agreeForUser_memWrite hmem hwf hwf' _ _
  all_goals exact .intro m hmem

/-- A step in user mode, other than a service trap, keeps the agreement: both runs fetch the same word
(R44, R184). -/
theorem agreeForUser_step (hwf : s.mem.wf) (hwf' : m.wf) (huser : s.psr.getLsbD 15 = true)
    (hservice : ∀ v8, decode (s.mem.read s.pc) = .trap v8 → v8.toNat < 0x20 ∨ 0x24 < v8.toNat)
    {t t' : State} (e : step s = .next t) (e' : step (s.withMem m) = .next t') :
    AgreeForUser t t' := by
  by_cases hrunning : s.status = .running
  case neg =>
    exact agreeForUser_of_next (step_of_not_running hrunning)
      (step_of_not_running (s := s.withMem m) hrunning) (.intro m hmem) e e'
  by_cases hm : s.MayAccess s.pc
  case neg =>
    exact agreeForUser_of_next (step_of_refused_fetch hrunning hm)
      (step_of_refused_fetch (s := s.withMem m) hrunning hm) (.intro m hmem) e e'
  have hread : m.read s.pc = s.mem.read s.pc := hmem.read_eq huser hm
  by_cases hpc : s.pc = 0xFFFF#16
  case pos =>
    have hend := step_of_end_of_memory (s := s.withMem m) hrunning hm hpc
    rw [hread] at hend
    exact agreeForUser_of_next (step_of_end_of_memory hrunning hm hpc) hend (.intro m hmem) e e'
  case neg =>
    rw [step_of_fetch hrunning hm hpc] at e
    rw [step_of_fetch (s := s.withMem m) hrunning hm hpc, State.latched, hread] at e'
    exact agreeForUser_exec (s := s.latched) hmem hwf hwf' huser hservice e e'

end

/-- Settles O51: the two steps make the same checks and read the same words, so their ends agree. -/
theorem userModeCannotReadPrivilegedMemory : Obligations.UserModeCannotReadPrivilegedMemory := by
  intro s s' t t' hwf hwf' hframe huser hmem hservice e e'
  rw [hframe] at e'
  obtain ⟨m, hagree⟩ := agreeForUser_step hmem hwf hwf' huser hservice e e'
  exact ⟨rfl, fun a ha => hagree a (cfg_of_step e ▸ ha)⟩

end Machine
end Sys2Proof

/-! PROOFS. Scope: the encoding: decoding an encoding, encoding what a canonical word decodes to, ignored
bits, the rows of the opcode table, the trap table, and the totality of a step (R61, R63 to R74, R76, R77,
R150, R184). -/

namespace Sys2Proof

/-! ### Decoding an encoding -/

/-- The encoding of an instruction has the instruction's opcode in bits 15:12 (R61). -/
theorem opcodeOf_encode (i : Instr) : opcodeOf (encode i) = i.opcode := by
  cases i with
  | br => exact congrArg Opcode.ofCode (br_op ..)
  | addReg | andReg => exact congrArg Opcode.ofCode (opr_op ..)
  | addImm | andImm => exact congrArg Opcode.ofCode (opi_op ..)
  | ld | st | ldi | sti | lea => exact congrArg Opcode.ofCode (pc9_op ..)
  | jsr => exact congrArg Opcode.ofCode (jsr11_op ..)
  | jsrr => exact congrArg Opcode.ofCode (jsrr_op ..)
  | ldr | str | not | jmp => exact congrArg Opcode.ofCode (base6_op ..)
  | rti | res => rfl
  | trap => exact congrArg Opcode.ofCode (trap_op ..)

/-- Every field the decoder reads from an encoding is the operand the encoder put there (R63 to R74). -/
theorem decode_encode (i : Instr) : decode (encode i) = i := by
  rw [decode, opcodeOf_encode]
  cases i with
  | br =>
    simp only [Instr.opcode, encode, br_n, br_z, br_p, br_c, BitVec.getLsbD_ofBool, decide_true,
      Bool.true_and]
  | addReg | andReg =>
    simp only [Instr.opcode, encode, regField, opr_m, opr_a, opr_b, opr_c, Reg.ofField_field]; rfl
  | addImm | andImm =>
    simp only [Instr.opcode, encode, regField, opi_m, opi_a, opi_b, opi_c, Reg.ofField_field]; rfl
  | ld | st | ldi | sti | lea =>
    simp only [Instr.opcode, encode, regField, pc9_a, pc9_c, Reg.ofField_field]
  | jsr => simp only [Instr.opcode, encode, jsr11_m, jsr11_c]; rfl
  | jsrr => simp only [Instr.opcode, encode, regField, jsrr_m, jsrr_b, Reg.ofField_field]; rfl
  | ldr | str =>
    simp only [Instr.opcode, encode, regField, base6_a, base6_b, base6_c, Reg.ofField_field]
  | not | jmp => simp only [Instr.opcode, encode, regField, base6_a, base6_b, Reg.ofField_field]
  | rti | res => rfl
  | trap => simp only [Instr.opcode, encode, trap_c]

/-- Settles O35: `decode_encode` holds of every instruction, well-formed or not. -/
theorem decodeOfEncode : Obligations.DecodeOfEncode := fun i _ => decode_encode i

/-- Settles O39: each of the eight words is the encoding of its instruction. -/
theorem sampleWordsDecode : Obligations.SampleWordsDecode :=
  ⟨decode_encode (.addReg .r2 .r0 .r1), decode_encode (.andImm .r1 .r2 0b10000#5),
    decode_encode (.not .r1 .r0), decode_encode (.ldr .r3 .r2 0b000001#6),
    decode_encode (.sti .r0 0b000000101#9), decode_encode (.br false false true 0b111111101#9),
    decode_encode (.jsr 0b00000000010#11), decode_encode (.trap 0x25#8)⟩

/-! ### Fields of a word -/

/-- Bits 15:12 of a word are the code of its opcode (R61). -/
theorem code_opcodeOf (w : Word) : w.extractLsb' 12 4 = (opcodeOf w).code :=
  (Opcode.code_ofCode _).symm

/-- A one-bit field as a Boolean (R74). -/
theorem ofBool_getLsbD (w : Word) (k : Nat) : BitVec.ofBool (w.getLsbD k) = w.extractLsb' k 1 := by
  rw [BitVec.getLsbD_eq_extractLsb']
  obtain h | h := BitVec.eq_zero_or_eq_one (w.extractLsb' k 1) <;> rw [h] <;> rfl

section
variable {w w' m f : Word} {lo n : Nat}

/-- A field inside a mask is read from the masked word. -/
theorem extractLsb'_of_and_eq (h : w &&& m = f) (hm : m.extractLsb' lo n = BitVec.allOnes n) :
    w.extractLsb' lo n = f.extractLsb' lo n := by
  rw [← h, BitVec.extractLsb'_and, hm, BitVec.and_allOnes]

/-- Words that agree in a mask have the same fields inside it. -/
theorem extractLsb'_eq_of_and_eq (h : w &&& m = w' &&& m)
    (hm : m.extractLsb' lo n = BitVec.allOnes n) : w.extractLsb' lo n = w'.extractLsb' lo n :=
  (extractLsb'_of_and_eq h hm).trans (extractLsb'_of_and_eq rfl hm).symm

end

/-! ### A word is put together from its fields, format by format (R63 to R72) -/

section
variable {w : Word} {op : BitVec 4} (hop : w.extractLsb' 12 4 = op)
include hop

theorem opr_fields {m : BitVec 1} {x : BitVec 2} (hm : w.extractLsb' 5 1 = m)
    (hx : w.extractLsb' 3 2 = x) :
    op ++ w.extractLsb' 9 3 ++ w.extractLsb' 6 3 ++ m ++ x ++ w.extractLsb' 0 3 = w := by
  subst hop hm hx
  simp only [BitVec.extractLsb'_append_extractLsb'_eq_extractLsb', BitVec.extractLsb'_eq_self]

theorem opi_fields {m : BitVec 1} (hm : w.extractLsb' 5 1 = m) :
    op ++ w.extractLsb' 9 3 ++ w.extractLsb' 6 3 ++ m ++ w.extractLsb' 0 5 = w := by
  subst hop hm
  simp only [BitVec.extractLsb'_append_extractLsb'_eq_extractLsb', BitVec.extractLsb'_eq_self]

theorem pc9_fields : op ++ w.extractLsb' 9 3 ++ w.extractLsb' 0 9 = w := by
  subst hop
  simp only [BitVec.extractLsb'_append_extractLsb'_eq_extractLsb', BitVec.extractLsb'_eq_self]

theorem base6_fields {a : BitVec 3} {c : BitVec 6} (ha : w.extractLsb' 9 3 = a)
    (hc : w.extractLsb' 0 6 = c) : op ++ a ++ w.extractLsb' 6 3 ++ c = w := by
  subst hop ha hc
  simp only [BitVec.extractLsb'_append_extractLsb'_eq_extractLsb', BitVec.extractLsb'_eq_self]

theorem br_fields : op ++ w.extractLsb' 11 1 ++ w.extractLsb' 10 1 ++ w.extractLsb' 9 1 ++
    w.extractLsb' 0 9 = w := by
  subst hop
  simp only [BitVec.extractLsb'_append_extractLsb'_eq_extractLsb', BitVec.extractLsb'_eq_self]

theorem jsr11_fields {m : BitVec 1} (hm : w.extractLsb' 11 1 = m) :
    op ++ m ++ w.extractLsb' 0 11 = w := by
  subst hop hm
  simp only [BitVec.extractLsb'_append_extractLsb'_eq_extractLsb', BitVec.extractLsb'_eq_self]

theorem jsrr_fields {m : BitVec 1} {x : BitVec 2} {c : BitVec 6} (hm : w.extractLsb' 11 1 = m)
    (hx : w.extractLsb' 9 2 = x) (hc : w.extractLsb' 0 6 = c) :
    op ++ m ++ x ++ w.extractLsb' 6 3 ++ c = w := by
  subst hop hm hx hc
  simp only [BitVec.extractLsb'_append_extractLsb'_eq_extractLsb', BitVec.extractLsb'_eq_self]

theorem noarg_fields {c : BitVec 12} (hc : w.extractLsb' 0 12 = c) : op ++ c = w := by
  subst hop hc
  exact BitVec.extractLsb'_append_extractLsb'

theorem trap_fields {x : BitVec 4} (hx : w.extractLsb' 8 4 = x) :
    op ++ x ++ w.extractLsb' 0 8 = w := by
  subst hop hx
  simp only [BitVec.extractLsb'_append_extractLsb'_eq_extractLsb', BitVec.extractLsb'_eq_self]

end

/-! ### The masks of the opcode table -/

section
variable {w : Word} {op : BitVec 4} {m : BitVec 1} (hop : w.extractLsb' 12 4 = op)
include hop

/-- Mask 0xF000 keeps the opcode (R61). -/
theorem and_opcodeMask : w &&& 0xF000#16 = op ++ 0#12 := by
  have hmask : 0xF000#16 = BitVec.allOnes 4 ++ 0#12 := rfl
  rw [hmask, ← noarg_fields hop rfl, BitVec.and_append, BitVec.and_allOnes, BitVec.and_zero]

/-- Mask 0xF020 keeps the opcode and bit 5 (R63, R64). -/
theorem and_opcodeMask_bit5 (hm : w.extractLsb' 5 1 = m) :
    w &&& 0xF020#16 = op ++ 0#6 ++ m ++ 0#5 := by
  have hmask : 0xF020#16 = BitVec.allOnes 4 ++ 0#6 ++ BitVec.allOnes 1 ++ 0#5 := rfl
  have hw : op ++ w.extractLsb' 6 6 ++ m ++ w.extractLsb' 0 5 = w := by
    subst hop hm
    simp only [BitVec.extractLsb'_append_extractLsb'_eq_extractLsb', BitVec.extractLsb'_eq_self]
  rw [hmask, ← hw, BitVec.and_append, BitVec.and_append, BitVec.and_append, BitVec.and_allOnes,
    BitVec.and_zero, BitVec.and_allOnes, BitVec.and_zero]

/-- Mask 0xF800 keeps the opcode and bit 11 (R70). -/
theorem and_opcodeMask_bit11 (hm : w.extractLsb' 11 1 = m) :
    w &&& 0xF800#16 = op ++ m ++ 0#11 := by
  have hmask : 0xF800#16 = BitVec.allOnes 4 ++ BitVec.allOnes 1 ++ 0#11 := rfl
  rw [hmask, ← jsr11_fields hop hm, BitVec.and_append, BitVec.and_append, BitVec.and_allOnes,
    BitVec.and_allOnes, BitVec.and_zero]

end

/-! ### What a word is read as -/

/-- `ReadAs w i m f`: by its opcode and mode bit the word `w` is the instruction `i`, in a format that
ignores the bits `m`, which an assembler fills with `f` (R61, R63 to R73, R76). -/
inductive ReadAs (w : Word) : Instr → Word → Word → Prop where
  | br (hop : w.extractLsb' 12 4 = 0x0) :
      ReadAs w (.br (w.getLsbD 11) (w.getLsbD 10) (w.getLsbD 9) (w.extractLsb' 0 9)) 0x0000 0x0000
  | addReg (hop : w.extractLsb' 12 4 = 0x1) (hmode : w.extractLsb' 5 1 = 0) :
      ReadAs w (.addReg (regField w 9) (regField w 6) (regField w 0)) 0x0018 0x0000
  | addImm (hop : w.extractLsb' 12 4 = 0x1) (hmode : w.extractLsb' 5 1 = 1) :
      ReadAs w (.addImm (regField w 9) (regField w 6) (w.extractLsb' 0 5)) 0x0000 0x0000
  | ld (hop : w.extractLsb' 12 4 = 0x2) :
      ReadAs w (.ld (regField w 9) (w.extractLsb' 0 9)) 0x0000 0x0000
  | st (hop : w.extractLsb' 12 4 = 0x3) :
      ReadAs w (.st (regField w 9) (w.extractLsb' 0 9)) 0x0000 0x0000
  | jsr (hop : w.extractLsb' 12 4 = 0x4) (hmode : w.extractLsb' 11 1 = 1) :
      ReadAs w (.jsr (w.extractLsb' 0 11)) 0x0000 0x0000
  | jsrr (hop : w.extractLsb' 12 4 = 0x4) (hmode : w.extractLsb' 11 1 = 0) :
      ReadAs w (.jsrr (regField w 6)) 0x063F 0x0000
  | andReg (hop : w.extractLsb' 12 4 = 0x5) (hmode : w.extractLsb' 5 1 = 0) :
      ReadAs w (.andReg (regField w 9) (regField w 6) (regField w 0)) 0x0018 0x0000
  | andImm (hop : w.extractLsb' 12 4 = 0x5) (hmode : w.extractLsb' 5 1 = 1) :
      ReadAs w (.andImm (regField w 9) (regField w 6) (w.extractLsb' 0 5)) 0x0000 0x0000
  | ldr (hop : w.extractLsb' 12 4 = 0x6) :
      ReadAs w (.ldr (regField w 9) (regField w 6) (w.extractLsb' 0 6)) 0x0000 0x0000
  | str (hop : w.extractLsb' 12 4 = 0x7) :
      ReadAs w (.str (regField w 9) (regField w 6) (w.extractLsb' 0 6)) 0x0000 0x0000
  | rti (hop : w.extractLsb' 12 4 = 0x8) : ReadAs w .rti 0x0FFF 0x0000
  | not (hop : w.extractLsb' 12 4 = 0x9) :
      ReadAs w (.not (regField w 9) (regField w 6)) 0x003F 0x003F
  | ldi (hop : w.extractLsb' 12 4 = 0xA) :
      ReadAs w (.ldi (regField w 9) (w.extractLsb' 0 9)) 0x0000 0x0000
  | sti (hop : w.extractLsb' 12 4 = 0xB) :
      ReadAs w (.sti (regField w 9) (w.extractLsb' 0 9)) 0x0000 0x0000
  | jmp (hop : w.extractLsb' 12 4 = 0xC) : ReadAs w (.jmp (regField w 6)) 0x0E3F 0x0000
  | res (hop : w.extractLsb' 12 4 = 0xD) : ReadAs w .res 0x0FFF 0x0000
  | lea (hop : w.extractLsb' 12 4 = 0xE) :
      ReadAs w (.lea (regField w 9) (w.extractLsb' 0 9)) 0x0000 0x0000
  | trap (hop : w.extractLsb' 12 4 = 0xF) : ReadAs w (.trap (w.extractLsb' 0 8)) 0x0F00 0x0000

/-- Every word is read as the instruction it decodes to, with the ignored bits and the fill of the
model's tables (R73, R76). -/
theorem readAs_decode (w : Word) : ReadAs w (decode w) (ignoredBits w) (canonicalFill w) := by
  have hcode := code_opcodeOf w
  rw [decode, ignoredBits, canonicalFill]
  cases hop : opcodeOf w <;> rw [hop] at hcode
  case add =>
    rw [BitVec.getLsbD_eq_extractLsb' w 5]
    obtain hmode | hmode := BitVec.eq_zero_or_eq_one (w.extractLsb' 5 1) <;> rw [hmode]
    · exact .addReg hcode hmode
    · exact .addImm hcode hmode
  case and =>
    rw [BitVec.getLsbD_eq_extractLsb' w 5]
    obtain hmode | hmode := BitVec.eq_zero_or_eq_one (w.extractLsb' 5 1) <;> rw [hmode]
    · exact .andReg hcode hmode
    · exact .andImm hcode hmode
  case jsr =>
    rw [BitVec.getLsbD_eq_extractLsb' w 11]
    obtain hmode | hmode := BitVec.eq_zero_or_eq_one (w.extractLsb' 11 1) <;> rw [hmode]
    · exact .jsrr hcode hmode
    · exact .jsr hcode hmode
  all_goals constructor; exact hcode

section
variable {w w' : Word} {i : Instr} {m f : Word}

/-- A word decodes to what it is read as (R73). -/
theorem ReadAs.decode_eq (h : ReadAs w i m f) : decode w = i := by
  cases h <;> rw [decode, opcodeOf, ‹w.extractLsb' 12 4 = _›]
  case addReg hmode | andReg hmode | jsrr hmode =>
    exact if_neg (by rw [BitVec.getLsbD_eq_extractLsb', hmode]; decide)
  case addImm hmode | andImm hmode | jsr hmode =>
    exact if_pos (by rw [BitVec.getLsbD_eq_extractLsb', hmode]; decide)
  all_goals rfl

/-- The fields of a word whose ignored bits hold the fill are put together again by the encoder
(R63 to R72, R76). -/
theorem ReadAs.encode_eq (h : ReadAs w i m f) (hfill : w &&& m = f) : encode i = w := by
  cases h <;> simp only [encode, regField, Reg.field_ofField]
  case br hop =>
    simp only [ofBool_getLsbD]
    exact br_fields hop
  case addReg hop hmode | andReg hop hmode =>
    exact opr_fields hop hmode (extractLsb'_of_and_eq hfill (by decide))
  case addImm hop hmode | andImm hop hmode => exact opi_fields hop hmode
  case ld hop | st hop | ldi hop | sti hop | lea hop => exact pc9_fields hop
  case jsr hop hmode => exact jsr11_fields hop hmode
  case jsrr hop hmode =>
    exact jsrr_fields hop hmode (extractLsb'_of_and_eq hfill (by decide))
      (extractLsb'_of_and_eq hfill (by decide))
  case ldr hop | str hop => exact base6_fields hop rfl rfl
  case not hop => exact base6_fields hop rfl (extractLsb'_of_and_eq hfill (by decide))
  case jmp hop =>
    exact base6_fields hop (extractLsb'_of_and_eq hfill (by decide))
      (extractLsb'_of_and_eq hfill (by decide))
  case rti hop | res hop => exact noarg_fields hop (extractLsb'_of_and_eq hfill (by decide))
  case trap hop => exact trap_fields hop (extractLsb'_of_and_eq hfill (by decide))

/-- A word that agrees with `w` outside the ignored bits of `w` is read as `w` is (R73). -/
theorem ReadAs.of_agree (h : ReadAs w i m f) (hagree : w &&& ~~~m = w' &&& ~~~m) :
    ReadAs w' i m f := by
  have field {lo n : Nat} (hin : (~~~m).extractLsb' lo n = BitVec.allOnes n) :
      w.extractLsb' lo n = w'.extractLsb' lo n := extractLsb'_eq_of_and_eq hagree hin
  by_cases hnone : m = 0x0000#16
  case pos =>
    rw [hnone, BitVec.not_zero, BitVec.and_allOnes, BitVec.and_allOnes] at hagree
    exact hagree ▸ h
  have reg {lo : Nat} (hin : (~~~m).extractLsb' lo 3 = BitVec.allOnes 3) :
      regField w lo = regField w' lo := congrArg Reg.ofField (field hin)
  cases h
  case addReg hop hmode | andReg hop hmode =>
    rw [field (by decide)] at hop hmode
    rw [reg (lo := 9) (by decide), reg (lo := 6) (by decide), reg (lo := 0) (by decide)]
    constructor <;> assumption
  case jsrr hop hmode =>
    rw [field (by decide)] at hop hmode
    rw [reg (by decide)]
    exact .jsrr hop hmode
  case not hop =>
    rw [field (by decide)] at hop
    rw [reg (lo := 9) (by decide), reg (lo := 6) (by decide)]
    exact .not hop
  case jmp hop =>
    rw [field (by decide)] at hop
    rw [reg (by decide)]
    exact .jmp hop
  case rti hop | res hop =>
    rw [field (by decide)] at hop
    constructor
    exact hop
  case trap hop =>
    rw [field (by decide)] at hop ⊢
    exact .trap hop
  all_goals exact absurd rfl hnone

/-- A word lies in the row of the opcode table of the instruction it is read as (R61). -/
theorem ReadAs.row_holds (h : ReadAs w i m f) : i.row.holds w = true := by
  rw [Row.holds, beq_iff_eq]
  cases h
  case addReg hop hmode | addImm hop hmode | andReg hop hmode | andImm hop hmode =>
    exact and_opcodeMask_bit5 hop hmode
  case jsr hop hmode | jsrr hop hmode => exact and_opcodeMask_bit11 hop hmode
  all_goals exact and_opcodeMask ‹_›

end

/-- The encoding of an instruction is a canonical word of the instruction's row (R63 to R72, R76). -/
theorem tableRow_statement (i : Instr) : Laws.TableRow.Statement i := by
  cases i with
  | br => exact Laws.TableRow.br ..
  | addReg => exact Laws.TableRow.addReg ..
  | addImm => exact Laws.TableRow.addImm ..
  | ld => exact Laws.TableRow.ld ..
  | st => exact Laws.TableRow.st ..
  | jsr => exact Laws.TableRow.jsr ..
  | jsrr => exact Laws.TableRow.jsrr ..
  | andReg => exact Laws.TableRow.andReg ..
  | andImm => exact Laws.TableRow.andImm ..
  | ldr => exact Laws.TableRow.ldr ..
  | str => exact Laws.TableRow.str ..
  | rti => exact Laws.TableRow.rti
  | not => exact Laws.TableRow.not ..
  | ldi => exact Laws.TableRow.ldi ..
  | sti => exact Laws.TableRow.sti ..
  | jmp => exact Laws.TableRow.jmp ..
  | res => exact Laws.TableRow.res
  | lea => exact Laws.TableRow.lea ..
  | trap => exact Laws.TableRow.trap ..

/-- Every encoding is canonical (R76). -/
theorem canonicalWord_encode (i : Instr) : canonicalWord (encode i) = true := by
  obtain ⟨-, -, -, hcanonical⟩ := tableRow_statement i
  exact hcanonical

/-- Settles O36: the ignored bits of a canonical word hold the fill; that every encoding is canonical is
part of the per-instruction table. -/
theorem encodeOfDecodeOnCanonicalWords : Obligations.EncodeOfDecodeOnCanonicalWords := by
  refine ⟨fun w hc => (readAs_decode w).encode_eq ?_, canonicalWord_encode⟩
  rwa [canonicalWord, beq_iff_eq] at hc

/-- Settles O37: `w'` is read as `w` is. -/
theorem ignoredBitsHaveNoEffect : Obligations.IgnoredBitsHaveNoEffect :=
  fun w _ hagree => ((readAs_decode w).of_agree hagree).decode_eq.symm

/-- No two rows of the opcode table agree in the bits that both look at (R61). -/
theorem opcodeTable_disjoint : ∀ r ∈ opcodeTable, ∀ r' ∈ opcodeTable,
    r.pattern &&& r'.mask = r'.pattern &&& r.mask → r = r' := by decide

/-- At most one row of the opcode table holds a word (R61). -/
theorem row_unique {r r' : Row} {w : Word} (hr : r ∈ opcodeTable) (hr' : r' ∈ opcodeTable)
    (h : r.holds w = true) (h' : r'.holds w = true) : r = r' := by
  rw [Row.holds, beq_iff_eq] at h h'
  refine opcodeTable_disjoint r hr r' hr' ?_
  rw [← h, ← h']
  ac_rfl

/-- Settles O38: a word lies in the row of what it is read as, and in no other. -/
theorem opcodeRowsPartitionWords : Obligations.OpcodeRowsPartitionWords :=
  fun w =>
    have hmem := Laws.TableRow.row_mem (decode w)
    have hholds := (readAs_decode w).row_holds
    ⟨hmem, hholds, fun _ hr h => row_unique hr hmem h hholds⟩

/-! ### The trap table -/

/-- The trap table selects a name for the name's own vector only (R77). -/
theorem TrapRoutine.ofVector?_eq_some_iff (v : Word) (r : TrapRoutine) :
    TrapRoutine.ofVector? v = some r ↔ v = Machine.zext8 r.vector := by
  constructor
  case mpr => rintro rfl; cases r <;> rfl
  case mp =>
    unfold TrapRoutine.ofVector?
    split <;> rintro ⟨⟩ <;> exact BitVec.eq_of_toNat_eq ‹_›

/-- The trap table selects nothing for a vector outside 0x20 to 0x25 (R77, R143). -/
theorem TrapRoutine.ofVector?_eq_none_iff (v : Word) :
    TrapRoutine.ofVector? v = none ↔ v.toNat < 0x20 ∨ 0x25 < v.toNat := by
  unfold TrapRoutine.ofVector?
  split
  case h_7 =>
    refine iff_of_true rfl ?_
    simp only [imp_false] at *
    omega
  all_goals exact iff_of_false (Option.some_ne_none _) (by omega)

/-- Settles O29: the six rows are evaluated; the look-up is `ofVector?_eq_some_iff` in both directions,
and `ofVector?_eq_none_iff`. -/
theorem trapTableIsClosed : Obligations.TrapTableIsClosed :=
  ⟨by decide, fun r => (TrapRoutine.ofVector?_eq_some_iff _ r).2 rfl,
    fun v r => (TrapRoutine.ofVector?_eq_some_iff v r).1, TrapRoutine.ofVector?_eq_none_iff⟩

namespace Machine

/-! ### Totality -/

/-- Every instruction answers a next state (R73, R150). -/
theorem exists_next_exec (i : Instr) (s : State) : ∃ t, exec i s = .next t := by
  cases i
  case trap v8 =>
    simp only [exec, execTrap]
    split <;> exact ⟨_, rfl⟩
  all_goals exact ⟨_, rfl⟩

/-- Settles O34: a step that executes nothing answers a next state by itself (R184). -/
theorem everyStepAnswersANextState : Obligations.EveryStepAnswersANextState := by
  refine ⟨exists_next_exec, fun s => ?_⟩
  obtain ⟨-, e⟩ | ⟨-, -, e⟩ | ⟨-, -, -, e⟩ | ⟨-, -, -, e⟩ := step_cases s <;> rw [e]
  case inr.inr.inr => exact exists_next_exec _ _
  all_goals exact ⟨_, rfl⟩

end Machine

end Sys2Proof

/-! PROOFS. Scope: ADD and AND, register and immediate forms: encoding, result, flags, frame (R12, R28, R63,
R64, R90 to R94). -/

namespace Sys2Proof

/-- A mode bit as a one-bit field (R73). -/
theorem extractLsb'_one_of_getLsbD {w : Word} {k : Nat} {b : Bool} (h : w.getLsbD k = b) :
    w.extractLsb' k 1 = BitVec.ofBool b := by
  rw [← h, ofBool_getLsbD]

namespace Machine

/-! ### The meanings, and their common end -/

section
variable (dr sr1 sr2 : Reg) (imm5 : BitVec 5) (s : State)

theorem exec_addReg :
    exec (.addReg dr sr1 sr2) s = .next (s.writeResult dr (s.readReg sr1 + s.readReg sr2)) := rfl

theorem exec_addImm :
    exec (.addImm dr sr1 imm5) s = .next (s.writeResult dr (s.readReg sr1 + sext imm5)) := rfl

theorem exec_andReg :
    exec (.andReg dr sr1 sr2) s = .next (s.writeResult dr (s.readReg sr1 &&& s.readReg sr2)) := rfl

theorem exec_andImm :
    exec (.andImm dr sr1 imm5) s = .next (s.writeResult dr (s.readReg sr1 &&& sext imm5)) := rfl

end

/-- An instruction that ends in `writeResult` answers a next state with the result in DR, the flags of
what DR holds, and everything else as it was (R28, R90). -/
theorem exists_next_of_writeResult {i : Instr} {s : State} {dr : Reg} {v : Word}
    (h : exec i s = .next (s.writeResult dr v)) :
    ∃ t, exec i s = .next t ∧ t.readReg dr = v ∧ FlagsFollow (t.readReg dr) s t ∧
      SameRegsBut [dr] s t ∧ t.pc = s.pc ∧ SameMem s t ∧ SameRest s t := by
  obtain ⟨hread, hregs, hflags, hframe⟩ := s.writeResult_spec dr v
  exact ⟨_, h, hread, hread.symm ▸ hflags, hregs, hframe⟩

/-- A bit of a sign-extended field: the field's own, and its top bit from there upwards (R12). -/
theorem getLsbD_sext {n k : Nat} (hn : 0 < n) (v : BitVec n) (hk : k < 16) :
    (sext v).getLsbD k = v.getLsbD (min k (n - 1)) := by
  rw [sext, BitVec.getLsbD_signExtend, BitVec.msb_eq_getLsbD_last, decide_eq_true hk, Bool.true_and]
  by_cases hin : k < n
  · rw [if_pos hin, Nat.min_eq_left (by omega)]
  · rw [if_neg hin, Nat.min_eq_right (by omega)]

/-! ### ADD and AND -/

/-- Settles O7: the sum of two words is the sum of their values modulo 2^16. -/
theorem addRegisterForm : Obligations.AddRegisterForm := by
  refine ⟨fun w hop hmode => ?_, fun dr sr1 sr2 s => ?_⟩
  · exact (ReadAs.addReg hop (extractLsb'_one_of_getLsbD hmode)).decode_eq
  · obtain ⟨t, hexec, hread, hframe⟩ := exists_next_of_writeResult (exec_addReg dr sr1 sr2 s)
    refine ⟨t, hexec, ?_, hframe⟩
    rw [hread]
    exact BitVec.toNat_add ..

/-- Settles O8: a word plus a sign-extended field is `toNat_add_sext`, as in an address. -/
theorem addImmediateForm : Obligations.AddImmediateForm := by
  refine ⟨fun w hop hmode => ?_, fun dr sr1 imm5 s => ?_⟩
  · exact (ReadAs.addImm hop (extractLsb'_one_of_getLsbD hmode)).decode_eq
  · obtain ⟨t, hexec, hread, hframe⟩ := exists_next_of_writeResult (exec_addImm dr sr1 imm5 s)
    refine ⟨t, hexec, ?_, hframe⟩
    rw [hread]
    exact toNat_add_sext ..

/-- Settles O9: the bits of the and of two words are the ands of their bits. -/
theorem andRegisterForm : Obligations.AndRegisterForm := by
  refine ⟨fun w hop hmode => ?_, fun dr sr1 sr2 s => ?_⟩
  · exact (ReadAs.andReg hop (extractLsb'_one_of_getLsbD hmode)).decode_eq
  · obtain ⟨t, hexec, hread, hframe⟩ := exists_next_of_writeResult (exec_andReg dr sr1 sr2 s)
    refine ⟨t, hexec, fun k => ?_, hframe⟩
    rw [hread, BitVec.getLsbD_and]

/-- Settles O10: the second operand's bits are those of `getLsbD_sext`. -/
theorem andImmediateForm : Obligations.AndImmediateForm := by
  refine ⟨fun w hop hmode => ?_, fun dr sr1 imm5 s => ?_⟩
  · exact (ReadAs.andImm hop (extractLsb'_one_of_getLsbD hmode)).decode_eq
  · obtain ⟨t, hexec, hread, hframe⟩ := exists_next_of_writeResult (exec_andImm dr sr1 imm5 s)
    refine ⟨t, hexec, fun k hk => ?_, hframe⟩
    rw [hread, BitVec.getLsbD_and, getLsbD_sext (by decide) imm5 hk]

end Machine
end Sys2Proof

/-! PROOFS. Scope: LD, LDI, LDR and LEA: encoding, loaded word, flags, frame, refused accesses (R28, R45,
R66, R67, R100 to R104). -/

namespace Sys2Proof.Machine

/-! ### The meanings, with the address written out -/

section
variable (dr baseR : Reg) (off9 : BitVec 9) (off6 : BitVec 6) (s : State)

theorem exec_ld : exec (.ld dr off9) s =
    .next (s.withMemRead (s.pc + sext off9) fun v => s.writeResult dr v) := rfl

theorem exec_ldi : exec (.ldi dr off9) s =
    .next (s.withMemRead (s.pc + sext off9) fun ea => s.withMemRead ea fun v => s.writeResult dr v) := rfl

theorem exec_ldr : exec (.ldr dr baseR off6) s =
    .next (s.withMemRead (s.readReg baseR + sext off6) fun v => s.writeResult dr v) := rfl

theorem exec_lea : exec (.lea dr off9) s = .next (s.writeReg dr (s.pc + sext off9)) := rfl

end

/-! ### The common ends of the loads -/

section
variable {i : Instr} {s : State} {dr : Reg} {a : Word}

/-- An instruction that ends in a checked read of `a` into DR answers, when the access is allowed, a
next state with the word at `a` in DR, the flags of that word, and everything else as it was (R100). -/
theorem exists_next_of_load (h : exec i s = .next (s.withMemRead a fun v => s.writeResult dr v))
    (ha : s.MayAccess a) :
    ∃ t, exec i s = .next t ∧ t.readReg dr = s.mem.read a ∧ FlagsFollow (s.mem.read a) s t ∧
      SameRegsBut [dr] s t ∧ t.pc = s.pc ∧ SameMem s t ∧ SameRest s t := by
  rw [State.withMemRead_of_mayAccess ha] at h
  obtain ⟨t, hexec, hread, hflags, hframe⟩ := exists_next_of_writeResult h
  exact ⟨t, hexec, hread, hread ▸ hflags, hframe⟩

/-- An instruction that begins with a checked read of a privileged address in user mode enters
`AccessViolation` there, whatever it would do with the word (R45). -/
theorem exists_next_of_refused_read {rest : Word → State}
    (h : exec i s = .next (s.withMemRead a rest)) (huser : s.psr.getLsbD 15 = true)
    (ha : a.toNat < s.cfg.privBoundary.toNat) :
    ∃ t, exec i s = .next t ∧ FaultEntered .accessViolation a s t := by
  rw [State.withMemRead_of_not_mayAccess (State.not_mayAccess_of_privileged huser ha)] at h
  exact ⟨_, h, s.faultEntered_raise _ _⟩

end

/-- Once its pointer may be read, LDI is a load from the address the pointer holds (R102). -/
theorem exec_ldi_of_mayAccess {s : State} {off9 : BitVec 9} (dr : Reg)
    (h : s.MayAccess (s.pc + sext off9)) : exec (.ldi dr off9) s =
      .next (s.withMemRead (s.mem.read (s.pc + sext off9)) fun v => s.writeResult dr v) := by
  rw [exec_ldi, State.withMemRead_of_mayAccess h]

/-! ### LD, LDI, LDR and LEA -/

/-- Settles O12: LD is a load from the PC-relative address. -/
theorem ldLoadsPcRelative : Obligations.LdLoadsPcRelative := by
  refine ⟨fun w hop => (ReadAs.ld hop).decode_eq, ?_⟩
  rintro dr off9 s _ rfl
  exact ⟨exists_next_of_load (exec_ld dr off9 s), exists_next_of_refused_read (exec_ld dr off9 s)⟩

/-- Settles O13: the pointer's check comes first; once it passes, the data access is that of a load from
the pointer. -/
theorem ldiLoadsThroughPointer : Obligations.LdiLoadsThroughPointer := by
  refine ⟨fun w hop => (ReadAs.ldi hop).decode_eq, ?_⟩
  rintro dr off9 s _ _ rfl rfl
  refine ⟨fun hpa => ?loaded, ?pointerRefused, fun huser hpa => ?dataRefused⟩
  case loaded => exact exists_next_of_load (exec_ldi_of_mayAccess dr hpa)
  case pointerRefused => exact exists_next_of_refused_read (exec_ldi dr off9 s)
  case dataRefused =>
    exact exists_next_of_refused_read (exec_ldi_of_mayAccess dr (.inr hpa)) huser

/-- Settles O14: LDR is a load whose address is formed from the state before the write, so DR = BaseR
is no case of its own. -/
theorem ldrLoadsBaseRelative : Obligations.LdrLoadsBaseRelative := by
  refine ⟨fun w hop => (ReadAs.ldr hop).decode_eq, ?_⟩
  rintro dr baseR off6 s _ rfl
  exact ⟨exists_next_of_load (exec_ldr dr baseR off6 s),
    exists_next_of_refused_read (exec_ldr dr baseR off6 s)⟩

/-- Settles O15: LEA is a bare register write, which reads and changes nothing else. -/
theorem leaStoresTheAddress : Obligations.LeaStoresTheAddress := by
  refine ⟨fun w hop => (ReadAs.lea hop).decode_eq, fun dr off9 s => ?_⟩
  exact ⟨_, exec_lea dr off9 s, s.readReg_writeReg_same _ _, rfl, s.sameRegsBut_writeReg _ _, rfl,
    fun _ => rfl, rfl, rfl, rfl, rfl, rfl, rfl⟩

end Sys2Proof.Machine

/-! PROOFS. Scope: ST, STI and STR: encoding, stored word, frame, refused accesses (R46, R66, R67, R110 to
R113). -/

namespace Sys2Proof.Machine

/-! ### The meanings, with the address written out -/

section
variable (sr baseR : Reg) (off9 : BitVec 9) (off6 : BitVec 6) (s : State)

theorem exec_st : exec (.st sr off9) s =
    .next (s.memWrite (s.pc + sext off9) (s.readReg sr)) := rfl

theorem exec_sti : exec (.sti sr off9) s =
    .next (s.withMemRead (s.pc + sext off9) fun ea => s.memWrite ea (s.readReg sr)) := rfl

theorem exec_str : exec (.str sr baseR off6) s =
    .next (s.memWrite (s.readReg baseR + sext off6) (s.readReg sr)) := rfl

end

/-- Once its pointer may be read, STI is a store to the address the pointer holds (R112). -/
theorem exec_sti_of_mayAccess {s : State} {off9 : BitVec 9} (sr : Reg)
    (h : s.MayAccess (s.pc + sext off9)) : exec (.sti sr off9) s =
      .next (s.memWrite (s.mem.read (s.pc + sext off9)) (s.readReg sr)) := by
  rw [exec_sti, State.withMemRead_of_mayAccess h]

/-! ### The common end of the stores -/

section
variable {i : Instr} {s : State} {a v : Word}

/-- An instruction that is a checked write of `v` to `a` answers, when the access is allowed, a next
state with `v` at `a` and everything else as it was (R46, R110). -/
theorem exists_next_of_store (h : exec i s = .next (s.memWrite a v)) (hwf : s.mem.wf)
    (ha : s.MayAccess a) :
    ∃ t, exec i s = .next t ∧ t.mem.read a = v ∧ SameMemBut a s t ∧ SameRegsBut [] s t ∧
      t.psr = s.psr ∧ t.pc = s.pc ∧ SameRest s t := by
  obtain ⟨hread, hmem, hregs, hpc, hpsr, hrest⟩ := (memWriteChecksPrivilege s a v hwf).2
    fun ⟨huser, hpriv⟩ => State.not_mayAccess_of_privileged huser hpriv ha
  exact ⟨_, h, hread, hmem, hregs, hpsr, hpc, hrest⟩

/-- An instruction that is a checked write to a privileged address in user mode enters
`AccessViolation` there and leaves memory unwritten (R46, R110). -/
theorem exists_next_of_refused_store (h : exec i s = .next (s.memWrite a v))
    (huser : s.psr.getLsbD 15 = true) (ha : a.toNat < s.cfg.privBoundary.toNat) :
    ∃ t, exec i s = .next t ∧ FaultEntered .accessViolation a s t := by
  rw [State.memWrite_of_not_mayAccess (State.not_mayAccess_of_privileged huser ha)] at h
  exact ⟨_, h, s.faultEntered_raise _ _⟩

end

/-! ### ST, STI and STR -/

/-- Settles O16: ST is a store to the PC-relative address. -/
theorem stStoresPcRelative : Obligations.StStoresPcRelative := by
  refine ⟨fun w hop => (ReadAs.st hop).decode_eq, ?_⟩
  rintro sr off9 s _ hwf rfl
  exact ⟨exists_next_of_store (exec_st sr off9 s) hwf,
    exists_next_of_refused_store (exec_st sr off9 s)⟩

/-- Settles O17: the pointer's check comes first; once it passes, the write is that of a store to the
address the pointer holds. -/
theorem stiStoresThroughPointer : Obligations.StiStoresThroughPointer := by
  refine ⟨fun w hop => (ReadAs.sti hop).decode_eq, ?_⟩
  rintro sr off9 s _ _ hwf rfl rfl
  refine ⟨fun hpa => ?stored, ?pointerRefused, fun huser hpa => ?writeRefused⟩
  case stored => exact exists_next_of_store (exec_sti_of_mayAccess sr hpa) hwf
  case pointerRefused => exact exists_next_of_refused_read (exec_sti sr off9 s)
  case writeRefused =>
    exact exists_next_of_refused_store (exec_sti_of_mayAccess sr (.inr hpa)) huser

/-- Settles O18: STR is a store whose address and word are both formed from the state before the write,
so SR = BaseR is no case of its own. -/
theorem strStoresBaseRelative : Obligations.StrStoresBaseRelative := by
  refine ⟨fun w hop => (ReadAs.str hop).decode_eq, ?_⟩
  rintro sr baseR off6 s _ hwf rfl
  exact ⟨exists_next_of_store (exec_str sr baseR off6 s) hwf,
    exists_next_of_refused_store (exec_str sr baseR off6 s)⟩

end Sys2Proof.Machine

/-! PROOFS. Scope: BR, JMP (RET), JSR and JSRR: encoding, link, target, frame (R30, R68 to R70, R120 to
R124). -/

namespace Sys2Proof.Machine

/-! ### BR's condition -/

section
variable (s : State) (n z p : Bool)

theorem State.branchTaken_iff : s.branchTaken n z p = true ↔
    (n = true ∧ s.psr.getLsbD 2 = true) ∨ (z = true ∧ s.psr.getLsbD 1 = true) ∨
      (p = true ∧ s.psr.getLsbD 0 = true) := by
  simp only [State.branchTaken, Bool.or_eq_true, Bool.and_eq_true, or_assoc]

/-- BR's condition looks at PSR[2:0] only. -/
theorem State.branchTaken_eq_flags : s.branchTaken n z p =
    ((n && s.flags.getLsbD 2) || (z && s.flags.getLsbD 1) || (p && s.flags.getLsbD 0)) := by
  simp [State.branchTaken, State.flags]

/-- The mask form of BR's condition, (IR[11:9] & PSR[2:0]) != 0: for each of the eight patterns of
either side (R120). -/
theorem State.branchTaken_iff_mask : s.branchTaken n z p = true ↔
    (BitVec.ofBool n ++ BitVec.ofBool z ++ BitVec.ofBool p : BitVec 3) &&& s.flags ≠ 0b000#3 := by
  rw [State.branchTaken_eq_flags]
  generalize s.flags = f
  revert n z p f
  decide

variable {s}

/-- With every flag requested, one flag that is set is enough. -/
theorem State.OneFlag.branchTaken (hs : s.OneFlag) : s.branchTaken true true true = true := by
  rw [State.branchTaken_iff_mask]
  obtain h | h | h := hs <;> rw [h] <;> decide

end

/-! ### The meanings, with the target written out -/

section
variable (n z p : Bool) (off9 : BitVec 9) (off11 : BitVec 11) (baseR : Reg) (s : State)

/-- A branch that is not taken leaves PC where the fetch put it. -/
theorem exec_br : exec (.br n z p off9) s =
    .next (s.setPc (if s.branchTaken n z p then s.pc + sext off9 else s.pc)) := by
  rw [apply_ite s.setPc]
  rfl

theorem exec_jmp : exec (.jmp baseR) s = .next (s.setPc (s.readReg baseR)) := rfl

theorem exec_jsr : exec (.jsr off11) s =
    .next ((s.writeReg .r7 s.pc).setPc (s.pc + sext off11)) := rfl

/-- The base register is read after R7 was written, so as R7 it gives the return address (R124). -/
theorem exec_jsrr : exec (.jsrr baseR) s =
    .next ((s.writeReg .r7 s.pc).setPc (if baseR = .r7 then s.pc else s.readReg baseR)) := by
  rw [← s.readReg_writeReg]
  rfl

end

/-! ### The common ends of the transfers -/

section
variable {i : Instr} {s : State} {a : Word}

/-- An instruction that only loads PC answers a next state with PC there and everything else as it was
(R120, R121). -/
theorem exists_next_of_transfer (h : exec i s = .next (s.setPc a)) :
    ∃ t, exec i s = .next t ∧ t.pc = a ∧ SameRegsBut [] s t ∧ t.psr = s.psr ∧ SameMem s t ∧
      SameRest s t :=
  ⟨_, h, rfl, fun r _ => s.readReg_setPc a r, rfl, fun _ => rfl, rfl, rfl, rfl, rfl, rfl, rfl⟩

/-- An instruction that puts the incremented PC into R7 and then loads PC answers a next state with
both there and everything else as it was (R123, R124). -/
theorem exists_next_of_link (h : exec i s = .next ((s.writeReg .r7 s.pc).setPc a)) :
    ∃ t, exec i s = .next t ∧ t.readReg .r7 = s.pc ∧ t.pc = a ∧ SameRegsBut [.r7] s t ∧
      t.psr = s.psr ∧ SameMem s t ∧ SameRest s t :=
  ⟨_, h, s.readReg_writeReg_same .r7 s.pc, rfl, s.sameRegsBut_writeReg .r7 s.pc, rfl, fun _ => rfl,
    rfl, rfl, rfl, rfl, rfl, rfl⟩

end

/-! ### BR, JMP, JSR and JSRR -/

/-- Settles O19: PC is the one thing BR can move, and it does when `branchTaken` holds, which is both
the flag-by-flag condition and the mask's. -/
theorem brTestsRequestedFlags : Obligations.BrTestsRequestedFlags := by
  refine ⟨fun w hop => (ReadAs.br hop).decode_eq, fun n z p off9 s => ?_⟩
  obtain ⟨t, hexec, hpc, hframe⟩ := exists_next_of_transfer (exec_br n z p off9 s)
  rw [← s.branchTaken_iff n z p]
  exact ⟨t, hexec, fun htaken => hpc.trans (if_pos htaken), fun hnot => hpc.trans (if_neg hnot),
    s.branchTaken_iff_mask n z p, hframe⟩

/-- Settles O20: no request is never met, and three requests are met by one flag. -/
theorem brNeverAndAlwaysForms : Obligations.BrNeverAndAlwaysForms := by
  refine fun off9 s => ⟨?never, fun hone => ?always⟩
  case never => exact ⟨_, exec_br false false false off9 s, rfl⟩
  case always => exact ⟨_, exec_br true true true off9 s, if_pos hone.branchTaken⟩

/-- Settles O21: JMP only loads PC, and 0xC1C0 is the encoding of JMP R7. -/
theorem jmpLoadsPc : Obligations.JmpLoadsPc := by
  refine ⟨fun w hop => (ReadAs.jmp hop).decode_eq, decode_encode (.jmp .r7), fun baseR s => ?_⟩
  exact exists_next_of_transfer (exec_jmp baseR s)

/-- Settles O22: JSR links, and its target is formed from the PC it links. -/
theorem jsrLinksAndBranches : Obligations.JsrLinksAndBranches := by
  refine ⟨fun w hop hmode => ?_, fun off11 s => ?_⟩
  · exact (ReadAs.jsr hop (extractLsb'_one_of_getLsbD hmode)).decode_eq
  · exact exists_next_of_link (exec_jsr off11 s)

/-- Settles O23: JSRR links, and R7 as the base register holds the link already. -/
theorem jsrrLinksThenReadsBase : Obligations.JsrrLinksThenReadsBase := by
  refine ⟨fun w hop hmode => ?_, fun baseR s => ?_⟩
  · exact (ReadAs.jsrr hop (extractLsb'_one_of_getLsbD hmode)).decode_eq
  · obtain ⟨t, hexec, hlink, hpc, hframe⟩ := exists_next_of_link (exec_jsrr baseR s)
    exact ⟨t, hexec, hlink, fun hr7 => hpc.trans (if_pos hr7), fun hother => hpc.trans (if_neg hother),
      hframe⟩

end Sys2Proof.Machine

/-! PROOFS. Scope: NOT: encoding, result, flags, frame (R28, R65, R130). -/

namespace Sys2Proof.Machine

theorem exec_not (dr sr : Reg) (s : State) :
    exec (.not dr sr) s = .next (s.writeResult dr (~~~s.readReg sr)) := rfl

/-- Settles O11: below the word's width, a bit of the complement is the complement of the bit. -/
theorem notInvertsEveryBit : Obligations.NotInvertsEveryBit := by
  refine ⟨fun w hop => (ReadAs.not hop).decode_eq, fun dr sr s => ?_⟩
  obtain ⟨t, hexec, hread, hframe⟩ := exists_next_of_writeResult (exec_not dr sr s)
  refine ⟨t, hexec, fun k hk => ?_, hframe⟩
  rw [hread, BitVec.getLsbD_not, decide_eq_true hk, Bool.true_and]

end Sys2Proof.Machine

/-! PROOFS. Scope: TRAP, RTI and RES: encoding, HALT, service requests, faults, frame (R71, R72, R140 to
R145, R185). -/

namespace Sys2Proof.Machine

/-! ### The meanings, one equation per row of the trap table -/

section
variable {vect8 : BitVec 8} (s : State)

theorem exec_trap_halt : exec (.trap 0x25#8) s = .next (s.setStatus .halted) := rfl

theorem exec_trap_service (hlo : 0x20 ≤ vect8.toNat) (hhi : vect8.toNat ≤ 0x24) :
    exec (.trap vect8) s = .next (s.serve (zext8 vect8)) := by
  obtain ⟨rfl, -⟩ | ⟨-, r, hr, hv⟩ | ⟨hout, -⟩ := ofVector?_zext8 vect8
  · exact absurd hhi (by decide)
  · simp only [exec, execTrap, hv]
  · omega

theorem exec_trap_other (hout : vect8.toNat < 0x20 ∨ 0x25 < vect8.toNat) :
    exec (.trap vect8) s = .next (s.raise .illegalTrapVector s.ir) := by
  have hv : TrapRoutine.ofVector? (zext8 vect8) = none := by
    rwa [TrapRoutine.ofVector?_eq_none_iff, zext8, BitVec.toNat_setWidth_of_le (by decide)]
  simp only [exec, execTrap, hv]

theorem exec_rti : exec .rti s = .next
    (s.raise (if s.psr.getLsbD 15 = true then .privilegeViolation else .illegalOpcode) s.ir) := rfl

theorem exec_res : exec .res s = .next (s.raise .illegalOpcode s.ir) := rfl

end

/-! ### Faults, and what the host sees of the run state -/

/-- An instruction that raises answers a next state with the fault entered and reported to the host
(R150, R184). -/
theorem exists_next_of_raise {i : Instr} {s : State} {cause : FaultCause} {info : Word}
    (h : exec i s = .next (s.raise cause info)) :
    ∃ t, exec i s = .next t ∧ FaultEntered cause info s t ∧ t.stepResult = .fault cause info :=
  ⟨_, h, s.faultEntered_raise cause info, rfl⟩

theorem State.stepResult_eq_ok_iff (s : State) : s.stepResult = .ok ↔ s.status = .running := by
  rw [State.stepResult]
  cases s.status <;> simp

/-- A stopped core stays as it is however long it is run (R185, R191). -/
theorem State.run_of_not_running {s : State} (h : s.status ≠ .running) (k : Nat) : s.run k = s := by
  cases k with
  | zero => rfl
  | succ k =>
    rw [State.run, step_of_not_running h]
    exact if_neg fun hok => h (s.stepResult_eq_ok_iff.1 hok)

/-! ### TRAP, RTI and RES -/

/-- Settles O24: HALT writes STATUS only, and a core that is not running stays as it is. -/
theorem trapHaltStopsTheCore : Obligations.TrapHaltStopsTheCore := by
  refine ⟨fun w hop => (ReadAs.trap hop).decode_eq, fun s => ?_⟩
  have hstopped : (s.setStatus .halted).status ≠ .running := Status.noConfusion
  exact ⟨_, exec_trap_halt s, rfl, rfl, fun r _ => s.readReg_setStatus _ r, rfl, rfl, rfl,
    fun _ => rfl, rfl, rfl, rfl, rfl, State.run_of_not_running hstopped⟩

/-- Settles O25: by the two kinds of reply, after either of which STATUS is what it was. -/
theorem trapServiceChangesOnlyR0 : Obligations.TrapServiceChangesOnlyR0 := by
  intro vect8 s hlo hhi
  refine ⟨_, exec_trap_service s hlo hhi, ?_⟩
  obtain ⟨hreply, e⟩ | ⟨v, hreply, e⟩ := s.serve_cases (zext8 vect8) <;> rw [e, hreply]
  case inl =>
    exact ⟨fun _ => s.readReg_noteService _ .r0, nofun, rfl, fun r _ => s.readReg_noteService _ r,
      rfl, rfl, rfl, fun _ => rfl, rfl, (State.stepResult_eq_ok_iff _).2, rfl, rfl, rfl⟩
  case inr =>
    refine ⟨nofun, ?written, rfl, State.sameRegsBut_writeReg _ .r0 v, rfl, rfl, rfl, fun _ => rfl,
      rfl, (State.stepResult_eq_ok_iff _).2, rfl, rfl, rfl⟩
    case written =>
      rintro _ ⟨⟩
      exact State.readReg_writeReg_same _ .r0 v

/-- Settles O26: a vector outside the trap table raises. -/
theorem trapOtherVectorFaults : Obligations.TrapOtherVectorFaults :=
  fun _ s hout => exists_next_of_raise (exec_trap_other s hout)

/-- Settles O27: RTI raises in either mode, and PSR[15] chooses the cause. -/
theorem rtiAlwaysFaults : Obligations.RtiAlwaysFaults := by
  refine ⟨fun w hop => (ReadAs.rti hop).decode_eq, fun s => ?_⟩
  obtain ⟨t, hexec, hfault, -⟩ := exists_next_of_raise (exec_rti s)
  refine ⟨t, hexec, fun huser => ?_, fun hprivileged => ?_⟩
  · rwa [if_pos huser] at hfault
  · rwa [hprivileged, if_neg Bool.false_ne_true] at hfault

/-- Settles O28: RES raises without a look at the mode. -/
theorem resAlwaysFaults : Obligations.ResAlwaysFaults := by
  refine ⟨fun w hop => (ReadAs.res hop).decode_eq, fun s => ?_⟩
  obtain ⟨t, hexec, hfault, -⟩ := exists_next_of_raise (exec_res s)
  exact ⟨t, hexec, hfault⟩

end Sys2Proof.Machine

/-! PROOFS. Scope: exceptions: where a faulting step enters its fault, and what it leaves as it was (R153,
R160, R161). -/

namespace Sys2Proof.Machine

/-- An instruction that takes a running core to FAULTED does nothing but enter the fault (R160). -/
theorem Effect.eq_raise_of_faulted {i : Instr} {s t : State} (h : Effect i s t)
    (hrunning : s.status = .running) (hfaulted : t.status = .faulted) :
    ∃ cause info, t = s.raise cause info := by
  obtain ⟨hstatus, -, -⟩ | ⟨-, rfl⟩ | ⟨cause, info, -, e⟩ := h.runState_cases
  · simp [hstatus, hrunning] at hfaulted
  · simp at hfaulted
  · exact ⟨cause, info, e⟩

/-- A step that takes a running core to FAULTED enters the fault in the state before the step, when the
fetch is refused, and in the latched state otherwise (R153, R161). -/
theorem eq_raise_of_faulting_step {s t : State} (hrunning : s.status = .running)
    (h : step s = .next t) (hfaulted : t.status = .faulted) :
    (¬ s.MayAccess s.pc ∧ t = s.raise .accessViolation s.pc) ∨
      (s.MayAccess s.pc ∧ ∃ cause info, t = s.latched.raise cause info) := by
  obtain ⟨hs, -⟩ | ⟨-, hm, e⟩ | ⟨-, -, -, rfl⟩ | ⟨-, hm, -, heff⟩ := step_next_cases h
  case inl => exact absurd hrunning hs
  case inr.inl => exact .inl ⟨hm, e⟩
  case inr.inr.inl => simp at hfaulted
  case inr.inr.inr => exact .inr ⟨hm, heff.eq_raise_of_faulted hrunning hfaulted⟩

/-- Settles O49: the fault is entered in the state before the step or in the latched one, and neither
latching nor fault entry touches a register, PSR or memory. -/
theorem faultsArePrecise : Obligations.FaultsArePrecise := by
  intro s t hrunning h hfaulted
  obtain ⟨hm, rfl⟩ | ⟨hm, cause, info, rfl⟩ := eq_raise_of_faulting_step hrunning h hfaulted
  · exact ⟨fun _ _ => rfl, rfl, fun _ => rfl, .inl ⟨hm, rfl, rfl⟩⟩
  · exact ⟨fun _ _ => rfl, rfl, fun _ => rfl, .inr ⟨hm, rfl, rfl⟩⟩

end Sys2Proof.Machine

/-! PROOFS. Scope: what one step of a core does from each run state, and the host's loading of an image
(R182, R184, R191). -/

namespace Sys2Proof.Machine

/-! ### The step -/

/-- Settles O30: the state the decoded instruction runs on is `State.latched`. -/
theorem stepRunsTheDecodedInstruction : Obligations.StepRunsTheDecodedInstruction := by
  rintro s _ hrunning hmay hpc rfl -
  exact step_of_fetch hrunning hmay hpc

/-- Settles O31: a refused fetch enters its fault in the state before the step. -/
theorem refusedFetchFaults : Obligations.RefusedFetchFaults := fun s hrunning huser hpc =>
  ⟨_, step_of_refused_fetch hrunning (State.not_mayAccess_of_privileged huser hpc),
    s.faultEntered_raise .accessViolation s.pc, rfl⟩

/-- Settles O32: at 0xFFFF a step writes IR and STATUS only. -/
theorem fetchAtTopOfMemoryEnds : Obligations.FetchAtTopOfMemoryEnds := by
  intro s hrunning hmay hpc
  have hir : s.mem.read s.pc = s.mem.read 0xFFFF#16 := by rw [hpc]
  exact ⟨_, step_of_end_of_memory hrunning hmay hpc, rfl, rfl, hpc, hir, fun _ _ => rfl, rfl,
    fun _ => rfl, rfl, rfl, rfl, rfl⟩

/-- Settles O33: a stopped core does nothing, once or many times over, and its step result is read off
STATUS. -/
theorem stoppedCoreStaysStopped : Obligations.StoppedCoreStaysStopped := by
  intro s k hstopped
  refine ⟨step_of_not_running hstopped, State.run_of_not_running hstopped k, ?halted, ?ended,
    ?faulted⟩
  all_goals
    intro hstatus
    rw [State.stepResult, hstatus]

/-! ### Loading an image -/

/-- The address after `a + k`, counted from `a` and from `a + 1` (R182). -/
theorem add_ofNat_succ (a : Word) (k : Nat) :
    a + BitVec.ofNat 16 (k + 1) = a + 1 + BitVec.ofNat 16 k := by
  rw [Nat.add_comm, BitVec.ofNat_add, ← BitVec.add_assoc]
  rfl

/-- Fewer than 2^16 words after `a` do not wrap round to `a` (R182). -/
theorem ne_add_one_add_ofNat (a : Word) {k : Nat} (hk : k + 1 < 0x10000) :
    a ≠ a + 1 + BitVec.ofNat 16 k := by
  bv_omega

/-- Loading words writes no field but memory (R182). -/
theorem State.loadWords_eq_withMem (s : State) (a : Word) (ws : List Word) :
    s.loadWords a ws = s.withMem (s.loadWords a ws).mem := by
  induction ws generalizing s a with
  | nil => rfl
  | cons w ws ih => exact ih (s.hostLoad a w) (a + 1)

/-- Loading words leaves every word outside the loaded range as it was (R182). -/
theorem State.read_loadWords_other {s : State} (hwf : s.mem.wf) {a b : Word} {ws : List Word}
    (hb : ∀ k < ws.length, b ≠ a + BitVec.ofNat 16 k) :
    (s.loadWords a ws).mem.read b = s.mem.read b := by
  induction ws generalizing s a with
  | nil => rfl
  | cons w ws ih =>
    have hfirst : b ≠ a := fun hba => hb 0 (Nat.zero_lt_succ _) (by rw [hba, BitVec.add_zero])
    have hrest : ∀ k < ws.length, b ≠ a + 1 + BitVec.ofNat 16 k := fun k hk => by
      rw [← add_ofNat_succ]
      exact hb (k + 1) (Nat.succ_lt_succ hk)
    calc ((s.hostLoad a w).loadWords (a + 1) ws).mem.read b
        = (s.hostLoad a w).mem.read b := ih (State.setMem_wf hwf a w) hrest
      _ = s.mem.read b := Memory.read_write_other hwf hfirst w

/-- Loading at most 2^16 words leaves word `k` at the `k`-th address from the first: none is overwritten
(R182). -/
theorem State.read_loadWords {s : State} (hwf : s.mem.wf) (a : Word) {ws : List Word}
    (hlen : ws.length ≤ 0x10000) {k : Nat} (hk : k < ws.length) :
    (s.loadWords a ws).mem.read (a + BitVec.ofNat 16 k) = ws[k] := by
  induction ws generalizing s a k with
  | nil => exact absurd hk (Nat.not_lt_zero k)
  | cons w ws ih =>
    rw [List.length_cons] at hlen hk
    have hwf' : (s.hostLoad a w).mem.wf := State.setMem_wf hwf a w
    cases k with
    | zero =>
      rw [BitVec.add_zero]
      calc ((s.hostLoad a w).loadWords (a + 1) ws).mem.read a
          = (s.hostLoad a w).mem.read a :=
            State.read_loadWords_other hwf' fun j hj => ne_add_one_add_ofNat a (by omega)
        _ = w := Memory.read_write_same hwf a w
    | succ k =>
      rw [add_ofNat_succ]
      exact ih hwf' (a + 1) (by omega) (Nat.lt_of_succ_lt_succ hk)

/-- Settles O54: the check on word 0 decides, and the words after it are loaded from the load base on. -/
theorem imageIsLoadedAtLoadBase : Obligations.ImageIsLoadedAtLoadBase := by
  intro s origin ws hwf hlen
  refine ⟨fun hne => if_neg hne, fun heq => ⟨_, if_pos heq, ?words, ?others, ?frame⟩⟩
  case words => exact fun k hk => State.read_loadWords hwf s.cfg.resetPc hlen hk
  case others => exact fun b hb => State.read_loadWords_other hwf hb
  case frame =>
    rw [State.loadWords_eq_withMem]
    exact ⟨fun _ _ => rfl, rfl, rfl, rfl, rfl, rfl, rfl, rfl, rfl⟩

end Sys2Proof.Machine
